-- ==== Sys2Proof/Word.lean ====
section
/-! DEFINITION. The widths of the block: a nibble, a command byte and a command word (00_scope.md R8). -/

namespace Sys2Proof

/-- A nibble, 4 bits: what one enable pulse carries (00_scope.md R8). -/
abbrev Nibble := BitVec 4

/-- A command byte, 8 bits (00_scope.md R8). -/
abbrev Byte := BitVec 8

/-- A command word of the host port, 19 bits (30_encoding.md R90). -/
abbrev CmdWord := BitVec 19

end Sys2Proof
end

