-- ==== Sys2Proof/Syntax.lean ====
section
/-! DEFINITION. The commands: one constructor for each row of spec/opcode_table.json (30_encoding.md R92). -/

namespace Sys2Proof

/-- A command, with both operand fields of the one format CMD19 (30_encoding.md R90, R91). Every constructor carries
`arg1` and `arg0`, the ignored ones too, so that no bit of a command word is dropped before a meaning ignores it
(30_encoding.md R96; log entry 12). -/
inductive Instr where
  /-- INIT, op 0b000 (40_init_sequence.md R110); both fields are ignored. -/
  | init (arg1 arg0 : Byte)
  /-- WDATA, op 0b001 (44_command_api.md R171): `arg0` is the data byte. -/
  | wdata (arg1 arg0 : Byte)
  /-- WINSTR, op 0b010 (44_command_api.md R172): `arg0` is the instruction byte. -/
  | winstr (arg1 arg0 : Byte)
  /-- SETCUR, op 0b011 (44_command_api.md R173): `arg1` is the row and `arg0` the column. -/
  | setcur (arg1 arg0 : Byte)
  /-- CLEAR, op 0b100 (44_command_api.md R174); both fields are ignored. -/
  | clear (arg1 arg0 : Byte)
  /-- HOME, op 0b101 (44_command_api.md R175); both fields are ignored. -/
  | home (arg1 arg0 : Byte)
  /-- DISPLAY, op 0b110 (44_command_api.md R176): bit 0 of `arg0` is on. -/
  | display (arg1 arg0 : Byte)
  /-- The reserved row, op 0b111 (30_encoding.md R97), whatever the other 16 bits hold. -/
  | reserved (arg1 arg0 : Byte)
  deriving DecidableEq, Repr

/-- The opcode of a command (30_encoding.md R92). -/
def Instr.op : Instr → BitVec 3
  | .init _ _ => 0b000#3
  | .wdata _ _ => 0b001#3
  | .winstr _ _ => 0b010#3
  | .setcur _ _ => 0b011#3
  | .clear _ _ => 0b100#3
  | .home _ _ => 0b101#3
  | .display _ _ => 0b110#3
  | .reserved _ _ => 0b111#3

/-- The field `arg1` of a command (30_encoding.md R90). -/
def Instr.arg1 : Instr → Byte
  | .init a _ | .wdata a _ | .winstr a _ | .setcur a _ | .clear a _ | .home a _ | .display a _ | .reserved a _ => a

/-- The field `arg0` of a command (30_encoding.md R90). -/
def Instr.arg0 : Instr → Byte
  | .init _ a | .wdata _ a | .winstr _ a | .setcur _ a | .clear _ a | .home _ a | .display _ a | .reserved _ a => a

end Sys2Proof
end

