-- ==== Sys2Proof/WellFormed.lean ====
section
/-! DEFINITION. Which commands a mnemonic of the assembler writes (30_encoding.md R101). -/

namespace Sys2Proof

/-- A command is well formed when some mnemonic of 30_encoding.md R101 writes its word: every ignored field is 0
(R96, R101), DISPLAY has an operand 0 or 1 (R101 refuses any other), and the opcode is not the reserved one, which no
mnemonic writes (R97). A word that is not well formed still decodes and still runs: `.word` places any word. -/
def Instr.wellFormed : Instr → Bool
  | .init arg1 arg0 => arg1 == 0 && arg0 == 0
  | .wdata arg1 _ => arg1 == 0
  | .winstr arg1 _ => arg1 == 0
  | .setcur _ _ => true
  | .clear arg1 arg0 => arg1 == 0 && arg0 == 0
  | .home arg1 arg0 => arg1 == 0 && arg0 == 0
  | .display arg1 arg0 => arg1 == 0 && (arg0 == 0 || arg0 == 1)
  | .reserved _ _ => false

end Sys2Proof
end

