-- ==== Sys2Proof/Decode.lean ====
section
/-! DEFINITION. Command words to commands and back (30_encoding.md R90, R92, R96 to R98). -/

namespace Sys2Proof

/-- `cmd_word[18:16]` (30_encoding.md R90). -/
def opField (w : CmdWord) : BitVec 3 := w.extractLsb' 16 3

/-- `cmd_word[15:8]` (30_encoding.md R90). -/
def arg1Field (w : CmdWord) : Byte := w.extractLsb' 8 8

/-- `cmd_word[7:0]` (30_encoding.md R90). -/
def arg0Field (w : CmdWord) : Byte := w.extractLsb' 0 8

/-- The command with this opcode and these fields (30_encoding.md R92). Seven opcodes are tested by value, and the one
left, 0b111, is the reserved one (R97). -/
def ofFields (op : BitVec 3) (arg1 arg0 : Byte) : Instr :=
  if op = 0b000#3 then .init arg1 arg0
  else if op = 0b001#3 then .wdata arg1 arg0
  else if op = 0b010#3 then .winstr arg1 arg0
  else if op = 0b011#3 then .setcur arg1 arg0
  else if op = 0b100#3 then .clear arg1 arg0
  else if op = 0b101#3 then .home arg1 arg0
  else if op = 0b110#3 then .display arg1 arg0
  else .reserved arg1 arg0

/-- The command that a command word stands for: every 19-bit word is one (30_encoding.md R92, R97). -/
def decode (w : CmdWord) : Instr := ofFields (opField w) (arg1Field w) (arg0Field w)

/-- Why a number is no command word. -/
inductive DecodeError where
  /-- The number needs more than the 19 bits of the host port (30_encoding.md R90: every command is exactly one
  word). -/
  | tooWide
  deriving DecidableEq, Repr

/-- The command of a number, which is refused by name where it is no 19-bit word (30_encoding.md R90). -/
def decodeNumber (n : Nat) : Except DecodeError Instr :=
  if n < 2 ^ 19 then .ok (decode (BitVec.ofNat 19 n)) else .error .tooWide

/-- The word of a command, `{op, arg1, arg0}` (30_encoding.md R90). -/
def encode (i : Instr) : CmdWord := i.op ++ i.arg1 ++ i.arg0

/-- The command the decoder reads from a row's word of `nbits` bits: the command word is one word of 19 wires, so it
has no byte order to lay out, and a number with a bit at 19 or above is none. -/
def decodeTableWord (nbits w : Nat) : Option Instr :=
  match decodeNumber (w % 2 ^ nbits) with
  | .ok i => some i
  | .error _ => none

end Sys2Proof
end

