-- ==== Sys2Proof/Config.lean ====
section
/-! DEFINITION. What an elaboration of the block fixes (00_scope.md R7), and the free values: constants with no body,
so that no proof can see what they are. -/

namespace Sys2Proof

/-- The elaboration parameters of 00_scope.md R7, in the order of its table.
A machine carries its own copy (`Machine.State.params`), which no step changes (log entry 1). -/
structure Params where
  /-- `F_CLK`, in hertz: only the two probe delays are derived from it. -/
  fClk : Nat
  /-- `N_SETTLE`, cycles before each enable assertion. -/
  nSettle : Nat
  /-- `N_HOLD`, cycles with enable asserted. -/
  nHold : Nat
  /-- `N_PWR`, cycles before the first probe. -/
  nPwr : Nat
  /-- `N_POR1`, cycles after probe 1. -/
  nPor1 : Nat
  /-- `N_POR2`, cycles after probe 2. -/
  nPor2 : Nat
  /-- `N_POR3`, cycles after probe 3. -/
  nPor3 : Nat
  /-- `POLL_LIMIT`, the most polls of one busy-flag wait: 0 is no limit. -/
  pollLimit : Nat
  /-- `BUSY_BIT`, the bit of the first read nibble that carries the busy flag: 0 to 3. -/
  busyBit : Fin 4
  /-- `CNT_W`, the width of `cnt`. -/
  cntW : Nat
  /-- `PCNT_W`, the width of `polls`. -/
  pcntW : Nat
  deriving DecidableEq, Repr

/-- The legal values of 00_scope.md R7. `N_POR1 >= ceil(0.0041 * F_CLK)` is written without a fraction as
`41 * F_CLK <= 10000 * N_POR1`, and `N_POR2` likewise. -/
abbrev Params.Legal (p : Params) : Prop :=
  0 < p.fClk ∧ 1 ≤ p.nSettle ∧ 1 ≤ p.nHold ∧
  41 * p.fClk ≤ 10000 * p.nPor1 ∧ p.fClk ≤ 10000 * p.nPor2 ∧
  p.nSettle < 2 ^ p.cntW ∧ p.nHold < 2 ^ p.cntW ∧ p.nPwr < 2 ^ p.cntW ∧
  p.nPor1 < 2 ^ p.cntW ∧ p.nPor2 < 2 ^ p.cntW ∧ p.nPor3 < 2 ^ p.cntW ∧
  p.pollLimit < 2 ^ p.pcntW ∧ (p.pollLimit = 0 → p.pcntW = 0)

/-- The bits needed to hold `n` (00_scope.md R7, the widths taken for `cnt` and `polls`). -/
def bitsFor (n : Nat) : Nat := if n = 0 then 0 else Nat.log2 n + 1

/-- The column 'value taken' of 00_scope.md R7, from the three values the table leaves OPEN. -/
def Params.taken (fClk nPwr nPor3 : Nat) : Params where
  fClk := fClk
  nSettle := 1
  nHold := 1
  nPwr := nPwr
  nPor1 := (41 * fClk + 9999) / 10000
  nPor2 := (fClk + 9999) / 10000
  nPor3 := nPor3
  pollLimit := 0
  busyBit := 3
  cntW := bitsFor (max 1 (max nPwr (max ((41 * fClk + 9999) / 10000) (max ((fClk + 9999) / 10000) nPor3))))
  pcntW := 0

/-- One less than `F_CLK`, which R7 leaves OPEN and above 0 (log entry 2). -/
opaque Config.fClkLessOne : Nat

/-- `N_PWR`, which R7 leaves OPEN (log entry 2). -/
opaque Config.nPwr : Nat

/-- `N_POR3`, which R7 leaves OPEN (log entry 2). -/
opaque Config.nPor3 : Nat

/-- The parameters of the block after reset: R7's values, with the OPEN ones free (log entries 1 and 2). -/
def Config.elaborated : Params := Params.taken (Config.fClkLessOne + 1) Config.nPwr Config.nPor3

/-- The free draw of the LCD oracle (20_memory.md R77): the nibble the LCD drives at the sample with this number
(log entry 4). -/
opaque Config.lcdNibble : Nat → Nibble

/-- The level read on data lines that nothing determines: undriven with no pull-up, or driven from both sides at once
(10_state.md R21 gives neither a level; log entry 6). -/
opaque Config.floatingNibble : Nat → Nibble

end Sys2Proof
end

