-- ==== Sys2Proof/Machine/State.lean ====
section
/-! DEFINITION. The state of the block, of its two neighbours, and of what is observed, as plain data
(10_state.md R20 to R43; 20_memory.md R66, R77, R80). -/

namespace Sys2Proof.Machine

/-- The bus direction, register `dir` (10_state.md R27). Its fourth code, 0b11, is never reached. -/
inductive Dir where
  /-- 0b00, lines not configured since reset. -/
  | unconf
  /-- 0b01, write. -/
  | out
  /-- 0b10, busy-flag read. -/
  | inp
  deriving DecidableEq, Repr

/-- The waits of the step lists, each for a parameter of 00_scope.md R7. -/
inductive Delay where
  | settle | hold | pwr | por1 | por2 | por3
  deriving DecidableEq, Repr

/-- The operand of `NIBBLE` (41_byte_transfer.md R131, R132). -/
inductive NibbleSource where
  /-- A fixed nibble: the probes and the mode switch. -/
  | fixed (n : Nibble)
  /-- `tx_byte[7:4]`. -/
  | txHigh
  /-- `tx_byte[3:0]`. -/
  | txLow
  deriving DecidableEq, Repr

/-- The result of `BUSY_WAIT` (43_busy_wait.md R151). -/
inductive WaitResult where
  | ok | timeout
  deriving DecidableEq, Repr

/-- What follows a `BUSY_WAIT` that returns TIMEOUT. -/
inductive OnTimeout where
  /-- A byte command goes on to its end (44_command_api.md R170). -/
  | carryOn
  /-- INIT goes to ABORT (40_init_sequence.md R124). -/
  | abort
  deriving DecidableEq, Repr

/-- One step of a step list: it takes its clock cycles, and its writes happen at the edge that begins the first
(70_reset_and_hazards.md R245). -/
inductive Step where
  /-- `CFG` (40_init_sequence.md R112). -/
  | cfg
  /-- The first step of `XFER`, which writes `rs_o` and `tx_byte` (41_byte_transfer.md R132). -/
  | select (rs : Bool) (b : Byte)
  /-- The first step of `NIBBLE`, which writes `d_o` (41_byte_transfer.md R131). -/
  | drive (src : NibbleSource)
  /-- `wait(n)` for the parameter n (00_scope.md R10). -/
  | wait (d : Delay)
  /-- A write of `e_o` (42_enable_pulse.md R140, 43_busy_wait.md R153). -/
  | enable (v : Bool)
  /-- The first step of `BUSY_WAIT` (43_busy_wait.md R152). -/
  | dirIn
  /-- A write of `rw_o` (43_busy_wait.md R152, R157). -/
  | readWrite (v : Bool)
  /-- The third step of `BUSY_WAIT`, which writes 0 to `rs_o` (43_busy_wait.md R152). -/
  | selectInstr
  /-- The sampling step of a poll (43_busy_wait.md R153). -/
  | sample
  /-- The last step of `BUSY_WAIT`, with the result it returns (43_busy_wait.md R151, R157). -/
  | dirOut (result : WaitResult)
  deriving DecidableEq, Repr

/-- An entry of a step list: a step, or a control construct, which takes no clock cycle (00_scope.md R10). -/
inductive Item where
  | step (x : Step)
  /-- The test at the end of a poll (43_busy_wait.md R155, R156): it leaves the loop or makes another poll. -/
  | pollTest (onTimeout : OnTimeout)
  /-- The end of INIT, which writes `init_done` and ends the command at once (40_init_sequence.md R121). -/
  | ready
  deriving DecidableEq, Repr

/-- The sequencer position `seq` (10_state.md R24): inside a step list it is the step whose cycle is running and what
is left of the list after it. The code of a position is the implementation's choice (R24; log entry 9). -/
inductive Seq where
  | idle
  | decode
  | run (current : Step) (rest : List Item)
  deriving DecidableEq, Repr

/-- A bus event (20_memory.md R66, 00_scope.md R11). -/
inductive Event where
  | cfg
  | rs (v : Bool)
  | rw (v : Bool)
  | e (v : Bool)
  /-- `D<-n`. -/
  | d (n : Nibble)
  | dirIn
  | dirOut
  /-- `SMP(b)`. -/
  | smp (b : Bool)
  /-- `WAIT(n)`, for the fixed init delays only. -/
  | wait (n : Nat)
  deriving DecidableEq, Repr

/-- What the host does with its inputs `rst`, `cmd_valid` and `cmd_word` (20_memory.md R80, R81; log entry 3). -/
inductive HostMove where
  /-- For one edge the host offers nothing: `cmd_valid` = 0 and `rst` = 0. -/
  | idle
  /-- The host offers this word and holds the offer until it is accepted. -/
  | offer (w : CmdWord)
  /-- The host offers this word for one edge and takes the offer back, accepted or not. -/
  | glance (w : CmdWord)
  /-- For one edge `rst` = 1; a word may be offered at the same edge. -/
  | reset (w : Option CmdWord)
  deriving DecidableEq, Repr

/-- The whole state: the block's registers (10_state.md R24 to R38), its elaboration parameters (00_scope.md R7), the
host and the LCD oracle (00_scope.md R13), and the observed trace (20_memory.md R66, R78). -/
structure State where
  /-- The elaboration parameters; no step changes them. -/
  params : Params
  /-- The sequencer position (R24). -/
  seq : Seq
  /-- The command word latched at acceptance (R25). -/
  cmd_r : CmdWord
  /-- The last INIT ran to its final step (R26). -/
  init_done : Bool
  /-- The bus direction (R27). -/
  dir : Dir
  /-- Output enable of RS, RW and E (R33). -/
  ctl_oe : Bool
  /-- Register-select output (R28). -/
  rs_o : Bool
  /-- Read/write output (R29). -/
  rw_o : Bool
  /-- Enable output (R30). -/
  e_o : Bool
  /-- Data-nibble output (R31). -/
  d_o : Nibble
  /-- Data output enable (R32). -/
  d_oe : Bool
  /-- Data pull-up enable (R32). -/
  d_pu : Bool
  /-- The delay counter: how many cycles of the running wait remain (R24, R34; log entries 7 and 8). -/
  cnt : Nat
  /-- The poll counter of the current wait (R35; log entry 8). -/
  polls : Nat
  /-- The last busy-flag sample (R36). -/
  busy_r : Bool
  /-- The byte being serialized (R37). -/
  tx_byte : Byte
  /-- Sticky ILLEGAL (R38). -/
  err_illegal : Bool
  /-- Sticky NOINIT (R38). -/
  err_noinit : Bool
  /-- Sticky TIMEOUT (R38). -/
  err_timeout : Bool
  /-- The host's moves to come, the next one first; a host with none left offers nothing (log entry 3). -/
  host : List HostMove
  /-- An LCD is on the bus (20_memory.md R77; log entry 5). -/
  lcdPresent : Bool
  /-- The nibbles the LCD drives at the samples to come, the next one first; with none left it answers from the free
  draw (20_memory.md R77; log entry 4). -/
  lcdAnswers : List Nibble
  /-- The model's own counter of free draws (log entry 4). -/
  draws : Nat
  /-- The bus trace so far, oldest first (20_memory.md R66; log entry 10). -/
  trace : List Event
  /-- The write latch events so far as `(RS, D)`, oldest first (20_memory.md R66, R78; log entry 11). -/
  latched : List (Bool × Nibble)
  deriving DecidableEq, Repr

/-- Why the machine would stop: there is no reason. The block has no trap mechanism and each of its three faults is a
sticky flag after which it goes on (60_exceptions.md R200, R208), so no step raises a fault of this type (safe: a type
with no value allows no stop). -/
inductive Fault where
  deriving DecidableEq, Repr

/-- Why a command would have no meaning. -/
inductive Refusal where
  /-- Raised by a dispatch arm for a command that has no meaning yet, with its mnemonic; no arm raises it now
  (safe: nothing can be proved of such a command). -/
  | notModelled (mnemonic : String)
  deriving DecidableEq, Repr

/-- The state right after a rising edge with `rst` = 1: every register at its value of 10_state.md R42. What is not a
register of the block has the value its log entry names: the parameters (1, 2), a host with no move (3), an LCD on the
bus with no scripted answer (4, 5), and nothing observed yet (10, 11). -/
def State.reset : State where
  params := Config.elaborated
  seq := .idle
  cmd_r := 0
  init_done := false
  dir := .unconf
  ctl_oe := false
  rs_o := false
  rw_o := false
  e_o := false
  d_o := 0
  d_oe := false
  d_pu := false
  cnt := 0
  polls := 0
  busy_r := false
  tx_byte := 0
  err_illegal := false
  err_noinit := false
  err_timeout := false
  host := []
  lcdPresent := true
  lcdAnswers := []
  draws := 0
  trace := []
  latched := []

end Sys2Proof.Machine
end

