-- ==== Sys2Proof/Machine/Flags.lean ====
section
/-! DEFINITION. The status word and the sticky fault flags (10_state.md R38, R40). -/

namespace Sys2Proof.Machine

/-- The code of a bus direction (10_state.md R27). -/
def Dir.code : Dir → BitVec 2
  | .unconf => 0b00#2
  | .out => 0b01#2
  | .inp => 0b10#2

/-- `status[0]`: the sequencer is in IDLE (10_state.md R40). -/
def State.isIdle (s : State) : Bool := s.seq == .idle

/-- `status[7:0]` (10_state.md R40), bit 7 first: BUSY_LAST, ERR_TIMEOUT, ERR_NOINIT, ERR_ILLEGAL, DIR, INIT_DONE,
IDLE. -/
def State.status (s : State) : BitVec 8 :=
  BitVec.ofBool s.busy_r ++ BitVec.ofBool s.err_timeout ++ BitVec.ofBool s.err_noinit ++ BitVec.ofBool s.err_illegal ++
    s.dir.code ++ BitVec.ofBool s.init_done ++ BitVec.ofBool s.isIdle

/-- The faults of 60_exceptions.md R202 to R204. -/
inductive FaultFlag where
  | illegal | noinit | timeout
  deriving DecidableEq, Repr

/-- `err_F <- 1`: the flag is sticky, so nothing here clears one (10_state.md R38, 60_exceptions.md R206). -/
def State.setFault (f : FaultFlag) (s : State) : State :=
  match f with
  | .illegal => { s with err_illegal := true }
  | .noinit => { s with err_noinit := true }
  | .timeout => { s with err_timeout := true }

end Sys2Proof.Machine
end

