-- ==== Sys2Proof/Machine/Ports.lean ====
section
/-! DEFINITION. The ports of the block: what the host drives, what the LCD drives, and what each line shows
(10_state.md R21, R22; 20_memory.md R73, R77, R80). -/

namespace Sys2Proof.Machine

/-- The host's move at the coming edge: a host with none left offers nothing (log entry 3). -/
def State.hostMove (s : State) : HostMove := s.host.headD .idle

/-- The input `rst` (10_state.md R20). -/
def HostMove.rst : HostMove → Bool
  | .reset _ => true
  | .idle | .offer _ | .glance _ => false

/-- The inputs `cmd_valid` and `cmd_word` together: the word offered, if one is (10_state.md R22). -/
def HostMove.offered : HostMove → Option CmdWord
  | .idle => none
  | .offer w => some w
  | .glance w => some w
  | .reset w => w

/-- The input `rst` at the coming edge. -/
def State.rst (s : State) : Bool := s.hostMove.rst

/-- The output `cmd_ready`: 1 exactly when `seq` = IDLE and `rst` = 0 (10_state.md R22). -/
def State.cmdReady (s : State) : Bool := s.isIdle && !s.rst

/-- The word accepted at the coming edge, if one is: `cmd_valid` = 1 and `cmd_ready` = 1 (20_memory.md R80). -/
def State.accepted (s : State) : Option CmdWord := if s.cmdReady then s.hostMove.offered else none

/-- The host's moves after an edge at which nothing is accepted: an offer is held, and any other move was for that edge
alone (20_memory.md R81; log entry 3). -/
def hostAfterEdge : List HostMove → List HostMove
  | [] => []
  | .offer w :: moves => .offer w :: moves
  | .idle :: moves => moves
  | .glance _ :: moves => moves
  | .reset _ :: moves => moves

/-- The output `lcd_rs`: undriven is none (10_state.md R21). -/
def State.lcdRs (s : State) : Option Bool := if s.ctl_oe then some s.rs_o else none

/-- The output `lcd_rw` (10_state.md R21). -/
def State.lcdRw (s : State) : Option Bool := if s.ctl_oe then some s.rw_o else none

/-- The output `lcd_e` (10_state.md R21). -/
def State.lcdE (s : State) : Option Bool := if s.ctl_oe then some s.e_o else none

/-- The outputs `lcd_d_o` and `lcd_d_oe` as a pad: what the block drives on the data lines (10_state.md R21). -/
def State.lcdD (s : State) : Option Nibble := if s.d_oe then some s.d_o else none

/-- The LCD's answer to the coming sample: the next scripted one, else a free draw (20_memory.md R77; log entry 4).
DESIGN CHOICE (log entry 23): `lcdIn` shows this nibble in the dummy pulse too, where the spec lets it be any value
(93_implementation_defined.md I8); the block stores nothing of it. -/
def State.lcdAnswer (s : State) : Nibble :=
  match s.lcdAnswers with
  | n :: _ => n
  | [] => Config.lcdNibble s.draws

/-- What the LCD drives on the data lines: a nibble while RW = 1 and E = 1, if there is an LCD (20_memory.md R73,
R77). -/
def State.lcdDrives (s : State) : Option Nibble :=
  if s.lcdPresent && s.lcdRw == some true && s.lcdE == some true then some s.lcdAnswer else none

/-- The level of the data lines, with `lcd` driven on them from the far side: the driven value, else the pull-up's 1s
(10_state.md R21). With neither, or with both sides driving, the spec gives no level (log entry 6). -/
def State.dataLines (s : State) (lcd : Option Nibble) : Nibble :=
  match s.lcdD, lcd with
  | some n, none => n
  | none, some n => n
  | none, none => if s.d_pu then 0xF#4 else Config.floatingNibble s.draws
  | some _, some _ => Config.floatingNibble s.draws

/-- The input `lcd_d_i`: the data lines as read back (10_state.md R21). -/
def State.lcdIn (s : State) : Nibble := s.dataLines s.lcdDrives

end Sys2Proof.Machine
end

