-- ==== Sys2Proof/Machine/Operands.lean ====
section
/-! DEFINITION. The bytes the commands put on the bus, and their nibbles (30_encoding.md R93 to R95;
20_memory.md R62). -/

namespace Sys2Proof.Machine

/-- `b[7:4]`, the nibble sent first (20_memory.md R62). -/
def highNibble (b : Byte) : Nibble := b.extractLsb' 4 4

/-- `b[3:0]`, the nibble sent second (20_memory.md R62). -/
def lowNibble (b : Byte) : Nibble := b.extractLsb' 0 4

/-- `cursor_byte(col, row) = trunc_8(0x80 | (zext_16(row) << 6) | zext_16(col))` (30_encoding.md R94). -/
def cursorByte (col row : Byte) : Byte :=
  (0x80#16 ||| (row.setWidth 16 <<< 6) ||| col.setWidth 16).setWidth 8

/-- `display_byte(a)`: 0x0E when `a[0]` is 1, else 0x08 (30_encoding.md R95). -/
def displayByte (a : Byte) : Byte := if a.getLsbD 0 then 0x0E#8 else 0x08#8

/-- The byte of CLEAR (30_encoding.md R93). -/
def clearByte : Byte := 0x01#8

/-- The byte of HOME, `cursor_byte(0, 0)` (30_encoding.md R93). -/
def homeByte : Byte := cursorByte 0 0

end Sys2Proof.Machine
end

