-- ==== Sys2Proof/Machine/Procedures.lean ====
section
/-! DEFINITION. The step lists of the block's internal procedures, each as its pseudocode gives it: PULSE, NIBBLE, XFER
and BUSY_WAIT (41_byte_transfer.md, 42_enable_pulse.md, 43_busy_wait.md). -/

namespace Sys2Proof.Machine

/-- `PULSE()` (42_enable_pulse.md R140). -/
def pulse : List Step := [.wait .settle, .enable true, .wait .hold, .enable false]

/-- `NIBBLE(n)` (41_byte_transfer.md R131). -/
def nibble (src : NibbleSource) : List Step := .drive src :: pulse

/-- `XFER(b, rs)` (41_byte_transfer.md R132). -/
def xfer (b : Byte) (rs : Bool) : List Step := .select rs b :: (nibble .txHigh ++ nibble .txLow)

/-- The three entry steps of `BUSY_WAIT` (43_busy_wait.md R152). -/
def waitEntry : List Step := [.dirIn, .readWrite true, .selectInstr]

/-- One poll: the sampling pulse and the dummy pulse (43_busy_wait.md R153, R154). -/
def poll : List Step :=
  [.wait .settle, .enable true, .wait .hold, .sample, .enable false] ++ pulse

/-- The two exit steps of `BUSY_WAIT` (43_busy_wait.md R157). -/
def waitExit (result : WaitResult) : List Step := [.readWrite false, .dirOut result]

/-- Steps as entries of a step list. -/
def steps (xs : List Step) : List Item := xs.map .step

/-- `BUSY_WAIT()` (43_busy_wait.md R151): the entry, the first poll and its test. The test makes the further polls and
the exit. -/
def busyWait (onTimeout : OnTimeout) : List Item := steps (waitEntry ++ poll) ++ [.pollTest onTimeout]

end Sys2Proof.Machine
end

