-- ==== Sys2Proof/Machine/Ops.lean ====
section
/-! DEFINITION. The shared operations: the writes of each step, how the sequencer moves along a step list, and raising a
fault (00_scope.md R10, R11; 60_exceptions.md R201; 70_reset_and_hazards.md R245). -/

namespace Sys2Proof.Machine

/-- The cycles of a wait (00_scope.md R7). -/
def State.delay (s : State) : Delay → Nat
  | .settle => s.params.nSettle
  | .hold => s.params.nHold
  | .pwr => s.params.nPwr
  | .por1 => s.params.nPor1
  | .por2 => s.params.nPor2
  | .por3 => s.params.nPor3

/-- The events of a wait: only the fixed init delays are listed (20_memory.md R66). -/
def Delay.events (n : Nat) : Delay → List Event
  | .settle | .hold => []
  | .pwr | .por1 | .por2 | .por3 => [.wait n]

/-- Bus events join the trace in order (20_memory.md R67). -/
def State.emit (s : State) (evs : List Event) : State := { s with trace := s.trace ++ evs }

/-- The nibble that a step of `NIBBLE` drives (41_byte_transfer.md R131, R132). -/
def State.nibbleOf (s : State) : NibbleSource → Nibble
  | .fixed n => n
  | .txHigh => highNibble s.tx_byte
  | .txLow => lowNibble s.tx_byte

/-- `e_o <- 0`: with RW = 0 the fall of a driven E is a write latch event, at which the LCD receives RS and the data
lines (20_memory.md R66, R72; log entry 11). -/
def State.fall (s : State) : State :=
  match s.lcdRs, s.lcdRw, s.lcdE with
  | some rs, some false, some true =>
    { s with
      e_o := false
      draws := if s.d_oe then s.draws else s.draws + 1
      latched := s.latched ++ [(rs, s.dataLines none)] }
  | _, _, _ => { s with e_o := false }

/-- `busy_r <- lcd_d_i[BUSY_BIT]` and `polls <- polls + 1`, where a block with no limit has no `polls`
(43_busy_wait.md R151). The LCD's answer is used up (20_memory.md R77). DESIGN CHOICE (log entry 23): in the sampling
step's own cycle, where E is still 1, `lcdIn` shows the nibble of the next sample; the block does not read it there. -/
def State.takeSample (s : State) : State :=
  { s with
    busy_r := s.lcdIn.getLsbD s.params.busyBit
    polls := if s.params.pollLimit = 0 then s.polls else s.polls + 1
    lcdAnswers := if s.lcdDrives.isSome then s.lcdAnswers.tail else s.lcdAnswers
    draws := s.draws + 1 }

/-- The writes of a step and its bus event. -/
def State.apply (s : State) : Step → State
  | .cfg =>
    { s with
      init_done := false, ctl_oe := true, rs_o := false, rw_o := false, e_o := false, d_o := 0, d_oe := true
      d_pu := false, dir := .out }.emit [.cfg]
  | .select rs b => { s with rs_o := rs, tx_byte := b }.emit [.rs rs]
  | .drive src => { s with d_o := s.nibbleOf src }.emit [.d (s.nibbleOf src)]
  | .wait d => { s with cnt := s.delay d }.emit (d.events (s.delay d))
  | .enable true => { s with e_o := true }.emit [.e true]
  | .enable false => s.fall.emit [.e false]
  | .dirIn =>
    { s with
      d_oe := false, d_pu := true, dir := .inp
      polls := if s.params.pollLimit = 0 then s.polls else 0 }.emit [.dirIn]
  | .readWrite v => { s with rw_o := v }.emit [.rw v]
  | .selectInstr => { s with rs_o := false }.emit [.rs false]
  | .sample => s.takeSample.emit [.smp s.takeSample.busy_r]
  | .dirOut .ok => { s with d_oe := true, d_pu := false, dir := .out }.emit [.dirOut]
  | .dirOut .timeout => ({ s with d_oe := true, d_pu := false, dir := .out }.setFault .timeout).emit [.dirOut]

/-- The edge that begins a step: its writes, and the position (70_reset_and_hazards.md R245). -/
def State.enter (s : State) (x : Step) (rest : List Item) : State := { s.apply x with seq := .run x rest }

/-- A step takes no cycle and has no event when it is `wait(0)` (70_reset_and_hazards.md R245). -/
def State.skips (s : State) : Step → Bool
  | .wait d => s.delay d == 0
  | _ => false

/-- The end of a command: `seq <- IDLE`. -/
def State.finish (s : State) : State := { s with seq := .idle }

/-- The edge that begins the first step of `xs` that takes a cycle, with `rest` after them. -/
def State.begin (s : State) (rest : List Item) : List Step → State
  | [] => s.finish
  | x :: xs => if s.skips x then s.begin rest xs else s.enter x (steps xs ++ rest)

/-- How a poll ends: not busy, the limit reached, or another poll (43_busy_wait.md R155, R156). -/
def State.pollResult (s : State) : Option WaitResult :=
  if s.busy_r = false then some .ok
  else if s.params.pollLimit ≠ 0 ∧ s.polls = s.params.pollLimit then some .timeout
  else none

/-- What is left of a command's step list after a wait that timed out (40_init_sequence.md R124, 44_command_api.md
R170). -/
def OnTimeout.rest (rest : List Item) : OnTimeout → List Item
  | .carryOn => rest
  | .abort => []

/-- The edge that moves on along a step list: control constructs take no cycle, and an empty list ends the command
(70_reset_and_hazards.md R245). -/
def State.proceed (s : State) : List Item → State
  | [] => s.finish
  | .step x :: rest => if s.skips x then s.proceed rest else s.enter x rest
  | .pollTest onTimeout :: rest =>
    match s.pollResult with
    | some .ok => s.begin rest (waitExit .ok)
    | some .timeout => s.begin (onTimeout.rest rest) (waitExit .timeout)
    | none => s.begin (.pollTest onTimeout :: rest) poll
  | .ready :: _ => { s with init_done := true }.finish

/-- `raise Fault(F)` in DECODE: the flag, and the command ends; nothing else changes and nothing is saved, since the
block has no trap entry and no return from one (60_exceptions.md R201, R208). -/
def State.raiseFault (s : State) (f : FaultFlag) : State := (s.setFault f).finish

/-- An edge inside a step list: a wait with cycles left stays, and any other step is over (10_state.md R24, R34;
log entry 7). -/
def State.runEdge (s : State) (current : Step) (rest : List Item) : State :=
  match current with
  | .wait _ => if 1 < s.cnt then { s with cnt := s.cnt - 1 } else { s with cnt := 0 }.proceed rest
  | _ => s.proceed rest

/-- The host's moves after an edge that accepts nothing. -/
def State.hostTick (s : State) : State := { s with host := hostAfterEdge s.host }

/-- An edge in IDLE with `rst` = 0: an offered word is latched into `cmd_r` and decoded next, and with none the block
waits, keeping everything (20_memory.md R80, 60_exceptions.md R214). -/
def State.idleEdge (s : State) : State :=
  match s.hostMove.offered with
  | some w => { s with cmd_r := w, seq := .decode, host := s.host.tail }
  | none => s.hostTick

/-- An edge with `rst` = 1: every register takes its reset value, the command in progress and one offered at this edge
are lost, and all seven lines are released (70_reset_and_hazards.md R230, R231; 60_exceptions.md R207). The parameters,
the LCD and what was observed before stay (log entry 10). -/
def State.resetEdge (s : State) : State :=
  { State.reset with
    params := s.params
    host := hostAfterEdge s.host
    lcdPresent := s.lcdPresent
    lcdAnswers := s.lcdAnswers
    draws := s.draws
    trace := s.trace
    latched := s.latched }

end Sys2Proof.Machine
end

