-- ==== Sys2Proof/Machine/ByteCommands.lean ====
section
/-! DEFINITION. The commands that put one byte on the bus (44_command_api.md). Each meaning is the edge that ends DECODE
(30_encoding.md R98): the fault NOINIT, or the first step of the command's step list with the rest of it in `seq`. -/

namespace Sys2Proof.Machine

/-- The step list of `BYTE_COMMAND(b, rs)` (44_command_api.md R170): the end of the list ends the command. -/
def byteProgram (b : Byte) (rs : Bool) : List Item := steps (xfer b rs) ++ busyWait .carryOn

/-- `BYTE_COMMAND(b, rs)` at the edge that ends DECODE: with `init_done` = 0 the command is dropped with NOINIT
(30_encoding.md R98, 60_exceptions.md R203). -/
def State.byteCommand (s : State) (b : Byte) (rs : Bool) : State :=
  if s.init_done then s.proceed (byteProgram b rs) else s.raiseFault .noinit

/-- WDATA (44_command_api.md R171). -/
def execWdata (_arg1 arg0 : Byte) (s : State) : Host.Outcome State Fault Refusal := .next (s.byteCommand arg0 true)

/-- WINSTR (44_command_api.md R172). -/
def execWinstr (_arg1 arg0 : Byte) (s : State) : Host.Outcome State Fault Refusal := .next (s.byteCommand arg0 false)

/-- SETCUR (44_command_api.md R173): `arg0` is the column and `arg1` the row. -/
def execSetcur (arg1 arg0 : Byte) (s : State) : Host.Outcome State Fault Refusal :=
  .next (s.byteCommand (cursorByte arg0 arg1) false)

/-- CLEAR (44_command_api.md R174). -/
def execClear (_arg1 _arg0 : Byte) (s : State) : Host.Outcome State Fault Refusal :=
  .next (s.byteCommand clearByte false)

/-- HOME (44_command_api.md R175). -/
def execHome (_arg1 _arg0 : Byte) (s : State) : Host.Outcome State Fault Refusal :=
  .next (s.byteCommand homeByte false)

/-- DISPLAY (44_command_api.md R176). -/
def execDisplay (_arg1 arg0 : Byte) (s : State) : Host.Outcome State Fault Refusal :=
  .next (s.byteCommand (displayByte arg0) false)

end Sys2Proof.Machine
end

