-- ==== Sys2Proof/Machine/Init.lean ====
section
/-! DEFINITION. INIT (40_init_sequence.md), at the edge that ends DECODE (30_encoding.md R98). -/

namespace Sys2Proof.Machine

/-- The nibble of the three probes (30_encoding.md R100). -/
def probeNibble : Nibble := 0x3#4

/-- The nibble of the mode switch (30_encoding.md R100). -/
def modeSwitchNibble : Nibble := 0x2#4

/-- The function-set byte: 4-bit interface, 2 lines, 5x8 font (40_init_sequence.md R118). -/
def functionSetByte : Byte := 0x28#8

/-- The cursor-home byte of INIT (40_init_sequence.md R119). -/
def initHomeByte : Byte := 0x80#8

/-- The clear byte of INIT (40_init_sequence.md R120). -/
def initClearByte : Byte := 0x01#8

/-- The display-on byte of INIT (40_init_sequence.md R121). -/
def displayOnByte : Byte := 0x0E#8

/-- A cold-start probe and its fixed delay, with no busy-flag read (40_init_sequence.md R114 to R116). -/
def probe (d : Delay) : List Item := steps (nibble (.fixed probeNibble) ++ [.wait d])

/-- An init state that transfers a byte and waits, and aborts INIT on a timeout (40_init_sequence.md R118 to R121,
R124). -/
def initByte (b : Byte) : List Item := steps (xfer b false) ++ busyWait .abort

/-- The step list of INIT (40_init_sequence.md R110). A wait of 0 cycles is no step (R113, R116). -/
def initProgram : List Item :=
  steps [.cfg, .wait .pwr] ++
  probe .por1 ++ probe .por2 ++ probe .por3 ++
  steps (nibble (.fixed modeSwitchNibble)) ++ busyWait .abort ++
  initByte functionSetByte ++ initByte initHomeByte ++ initByte initClearByte ++ initByte displayOnByte ++
  [.ready]

/-- INIT, whatever `init_done` holds (40_init_sequence.md R110, R123). -/
def execInit (_arg1 _arg0 : Byte) (s : State) : Host.Outcome State Fault Refusal := .next (s.proceed initProgram)

end Sys2Proof.Machine
end

