-- ==== Sys2Proof/Machine/Reserved.lean ====
section
/-! DEFINITION. The reserved opcode (30_encoding.md R97), at the edge that ends DECODE (30_encoding.md R98). -/

namespace Sys2Proof.Machine

/-- Opcode 0b111 raises ILLEGAL, whatever the other bits and `init_done` hold (60_exceptions.md R202). -/
def execReserved (_arg1 _arg0 : Byte) (s : State) : Host.Outcome State Fault Refusal := .next (s.raiseFault .illegal)

end Sys2Proof.Machine
end

