-- ==== Sys2Proof/Machine/Dispatch.lean ====
section
/-! DEFINITION. One arm for each command (30_encoding.md R92, R98). -/

namespace Sys2Proof.Machine

def exec (i : Instr) (s : State) : Host.Outcome State Fault Refusal :=
  match i with
  | .init arg1 arg0 => Sys2Proof.Machine.execInit arg1 arg0 s
  | .wdata arg1 arg0 => Sys2Proof.Machine.execWdata arg1 arg0 s
  | .winstr arg1 arg0 => Sys2Proof.Machine.execWinstr arg1 arg0 s
  | .setcur arg1 arg0 => Sys2Proof.Machine.execSetcur arg1 arg0 s
  | .clear arg1 arg0 => Sys2Proof.Machine.execClear arg1 arg0 s
  | .home arg1 arg0 => Sys2Proof.Machine.execHome arg1 arg0 s
  | .display arg1 arg0 => Sys2Proof.Machine.execDisplay arg1 arg0 s
  | .reserved arg1 arg0 => Sys2Proof.Machine.execReserved arg1 arg0 s

end Sys2Proof.Machine
end

