-- ==== Sys2Proof/Machine/Step.lean ====
section
/-! DEFINITION. One rising edge of `clk` (10_state.md R20), and placing a command word where the block takes it. -/

namespace Sys2Proof.Machine

/-- One rising edge of `clk`. `rst` wins over everything (60_exceptions.md R207). In IDLE a word may be accepted
(20_memory.md R80), in DECODE the word in `cmd_r` is decoded and its command begun or faulted (30_encoding.md R98), and
inside a step list the sequencer moves on (70_reset_and_hazards.md R245). -/
def step (s : State) : Host.Outcome State Fault Refusal :=
  if s.rst then .next s.resetEdge
  else
    match s.seq with
    | .idle => .next s.idleEdge
    | .decode => exec (decode s.cmd_r) s.hostTick
    | .run current rest => .next (s.hostTick.runEdge current rest)

/-- `s` with a command word latched and the sequencer in DECODE, as the acceptance edge leaves them (20_memory.md R80),
so that the next step runs that command. The host is given one idle edge first, so that no reset of its arrives at that
step and all its moves come after it (log entry 13). -/
def State.withFetchWord (s : State) (nbits w : Nat) : State :=
  { s with cmd_r := BitVec.ofNat 19 (w % 2 ^ nbits), seq := .decode, host := .idle :: s.host }

end Sys2Proof.Machine
end

