-- ==== Sys2Proof/Machine/HostSequences.lean ====
section
/-! DEFINITION. The host's write-string and write-number, and a host that issues a list of commands
(45_host_sequences.md). -/

namespace Sys2Proof.Machine

/-- The string terminator, the NUL byte (45_host_sequences.md R190). -/
def terminator : Byte := 0x00#8

/-- WSTR: one WDATA for each character before the terminator, in order (45_host_sequences.md R190). -/
def wstr (text : List Byte) : List Instr := (text.takeWhile (· != terminator)).map (.wdata 0)

/-- The base-10 digits of `m`, most significant first and with no leading zero, of at most `k + 1` digits. -/
def digitsOf : Nat → Nat → List Nat
  | 0, m => [m % 10]
  | k + 1, m => if m < 10 then [m] else digitsOf k (m / 10) ++ [m % 10]

/-- The character code of a digit, 0x30 to 0x39 (45_host_sequences.md R194). -/
def digitCode (d : Nat) : Byte := BitVec.ofNat 8 (0x30 + d)

/-- The character code of the minus sign (45_host_sequences.md R194). -/
def minusCode : Byte := 0x2D#8

/-- `|v|`, which needs 17 bits: `|-32768|` is 32768 (45_host_sequences.md R192). -/
def magnitude (v : BitVec 16) : Nat := v.toInt.natAbs

/-- `decimal(v)`, the text of write-number for a signed 16-bit value (45_host_sequences.md R192). -/
def decimal (v : BitVec 16) : List Byte :=
  (if v.toInt < 0 then [minusCode] else []) ++ (digitsOf 4 (magnitude v)).map digitCode

/-- WNUM, which delegates to write-string (45_host_sequences.md R193). -/
def wnum (v : BitVec 16) : List Instr := wstr (decimal v)

/-- A host that issues these commands in order. Each offer is held until it is accepted, which is only when the block
is in IDLE again (45_host_sequences.md R195, 20_memory.md R80). -/
def hostOffers (cmds : List Instr) : List HostMove := cmds.map (.offer <| encode ·)

end Sys2Proof.Machine
end

