-- ==== Sys2Proof/Machine/Assembler.lean ====
section
/-! DEFINITION. The assembler: one line of text to command words (30_encoding.md R101, R102; log entries 17, 18). -/

namespace Sys2Proof.Machine

/-- A line of the assembler's input (30_encoding.md R101, R102), with its operands as numbers or texts. -/
inductive AsmLine where
  /-- No command: an empty line or a comment. -/
  | blank
  | init
  | wdata (imm : Nat)
  | winstr (imm : Nat)
  | setcur (col row : Nat)
  | clear
  | home
  | display (on : Nat)
  /-- `.word imm19`. -/
  | word (imm : Nat)
  | dispon
  | dispoff
  | wstr (text : List Byte)
  | wnum (v : Int)
  deriving DecidableEq, Repr

/-- An `imm8`: an operand over 255 is refused (30_encoding.md R101). -/
def imm8 (n : Nat) : Option Byte := if n ≤ 255 then some (BitVec.ofNat 8 n) else none

/-- The command words of a line, or a refusal (30_encoding.md R101, R102). -/
def assemble : AsmLine → Option (List CmdWord)
  | .blank => some []
  | .init => some [encode (.init 0 0)]
  | .wdata n => (imm8 n).map fun b => [encode (.wdata 0 b)]
  | .winstr n => (imm8 n).map fun b => [encode (.winstr 0 b)]
  | .setcur col row => (imm8 col).bind fun c => (imm8 row).map fun r => [encode (.setcur r c)]
  | .clear => some [encode (.clear 0 0)]
  | .home => some [encode (.home 0 0)]
  | .display n => if n ≤ 1 then some [encode (.display 0 (BitVec.ofNat 8 n))] else none
  | .word n => if n < 2 ^ 19 then some [BitVec.ofNat 19 n] else none
  | .dispon => some [encode (.display 0 1)]
  | .dispoff => some [encode (.display 0 0)]
  | .wstr text => some ((Machine.wstr text).map encode)
  | .wnum v => if -32768 ≤ v ∧ v ≤ 32767 then some ((Machine.wnum (BitVec.ofInt 16 v)).map encode) else none

/-- A token of a line. -/
inductive Token where
  /-- A mnemonic or a number. -/
  | bare (cs : List Char)
  /-- A character literal. -/
  | char (c : Char)
  /-- A quoted text. -/
  | text (cs : List Char)
  | comma
  deriving DecidableEq, Repr

/-- Where the lexer stands in a line. -/
inductive LexMode where
  | bare (acc : List Char)
  | text (acc : List Char)
  | charOpen
  | charRead (c : Char)
  deriving DecidableEq, Repr

/-- The double quote. -/
def doubleQuote : Char := Char.ofNat 34

/-- The single quote. -/
def singleQuote : Char := Char.ofNat 39

/-- The characters gathered so far (last first), as a token before `ts`. -/
def flushBare (acc : List Char) (ts : List Token) : List Token :=
  if acc.isEmpty then ts else .bare acc.reverse :: ts

/-- The tokens of a line. A `;` outside quotes starts a comment (30_encoding.md R101). DESIGN CHOICE (log entry 17): a quote
ends the token before it, so no blank need stand before a literal, and a text ends at the first double quote, with no
escape for one inside it. -/
def lex : LexMode → List Char → Option (List Token)
  | .bare acc, [] => some (flushBare acc [])
  | .bare acc, c :: cs =>
    if c = ';' then some (flushBare acc [])
    else if c = doubleQuote then (lex (.text []) cs).map (flushBare acc)
    else if c = singleQuote then (lex .charOpen cs).map (flushBare acc)
    else if c = ',' then (lex (.bare []) cs).map fun ts => flushBare acc (.comma :: ts)
    else if c = ' ' ∨ c = '\t' then (lex (.bare []) cs).map (flushBare acc)
    else lex (.bare (c :: acc)) cs
  | .text _, [] => none
  | .text acc, c :: cs =>
    if c = doubleQuote then (lex (.bare []) cs).map (.text acc.reverse :: ·) else lex (.text (c :: acc)) cs
  | .charOpen, [] => none
  | .charOpen, c :: cs => lex (.charRead c) cs
  | .charRead _, [] => none
  | .charRead c, q :: cs => if q = singleQuote then (lex (.bare []) cs).map (.char c :: ·) else none

/-- The value of a digit in a base up to 16. -/
def digitValue (c : Char) : Option Nat :=
  if '0' ≤ c ∧ c ≤ '9' then some (c.toNat - 48)
  else if 'a' ≤ c ∧ c ≤ 'f' then some (c.toNat - 87)
  else if 'A' ≤ c ∧ c ≤ 'F' then some (c.toNat - 55)
  else none

/-- The number that digits in this base continue, from the value read so far. -/
def digitsValue (base : Nat) : Nat → List Char → Option Nat
  | n, [] => some n
  | n, c :: cs => (digitValue c).bind fun d => if d < base then digitsValue base (n * base + d) cs else none

/-- An unsigned number: decimal, or hexadecimal after `0x` (30_encoding.md R101). DESIGN CHOICE (log entry 18): leading
zeros are accepted in both. -/
def number : List Char → Option Nat
  | [] => none
  | '0' :: 'x' :: c :: cs => digitsValue 16 0 (c :: cs)
  | c :: cs => digitsValue 10 0 (c :: cs)

/-- A signed decimal number, the operand of WNUM (30_encoding.md R102). -/
def signedNumber : List Char → Option Int
  | '-' :: c :: cs => (digitsValue 10 0 (c :: cs)).map fun n => -(n : Int)
  | [] => none
  | c :: cs => (digitsValue 10 0 (c :: cs)).map Int.ofNat

/-- The ASCII code of a character; a character that has none is refused (30_encoding.md R101; log entry 17). -/
def asciiCode (c : Char) : Option Byte := if c.toNat < 128 then some (BitVec.ofNat 8 c.toNat) else none

/-- The ASCII codes of a text. -/
def asciiCodes : List Char → Option (List Byte)
  | [] => some []
  | c :: cs => (asciiCode c).bind fun b => (asciiCodes cs).map (b :: ·)

/-- The number of an operand token: a number, or a character literal (30_encoding.md R101). -/
def operand : Token → Option Nat
  | .bare cs => number cs
  | .char c => (asciiCode c).map BitVec.toNat
  | .text _ => none
  | .comma => none

/-- The mnemonics of 30_encoding.md R101 and R102. -/
inductive Mnemonic where
  | init | wdata | winstr | setcur | clear | home | display | word | dispon | dispoff | wstr | wnum
  deriving DecidableEq, Repr

/-- The spellings of the mnemonics, in capitals. -/
def mnemonicTable : List (List Char × Mnemonic) :=
  [ (['I', 'N', 'I', 'T'], .init), (['W', 'D', 'A', 'T', 'A'], .wdata), (['W', 'I', 'N', 'S', 'T', 'R'], .winstr),
    (['S', 'E', 'T', 'C', 'U', 'R'], .setcur), (['C', 'L', 'E', 'A', 'R'], .clear), (['H', 'O', 'M', 'E'], .home),
    (['D', 'I', 'S', 'P', 'L', 'A', 'Y'], .display), (['.', 'W', 'O', 'R', 'D'], .word),
    (['D', 'I', 'S', 'P', 'O', 'N'], .dispon), (['D', 'I', 'S', 'P', 'O', 'F', 'F'], .dispoff),
    (['W', 'S', 'T', 'R'], .wstr), (['W', 'N', 'U', 'M'], .wnum) ]

/-- The mnemonic of a token, in capitals or not (30_encoding.md R101). -/
def mnemonicOf (cs : List Char) : Option Mnemonic := mnemonicTable.lookup (cs.map Char.toUpper)

/-- The line that a mnemonic and its operand tokens make (30_encoding.md R101, R102). DESIGN CHOICE (log entry 18): the
operand of DISPLAY is any spelling of an `imm8`, and `assemble` refuses it by its value where that is not 0 or 1. -/
def lineOf : Mnemonic → List Token → Option AsmLine
  | .init, [] => some .init
  | .wdata, [t] => (operand t).map .wdata
  | .winstr, [t] => (operand t).map .winstr
  | .setcur, [t, .comma, u] => (operand t).bind fun c => (operand u).map fun r => .setcur c r
  | .clear, [] => some .clear
  | .home, [] => some .home
  | .display, [t] => (operand t).map .display
  | .word, [.bare cs] => (number cs).map .word
  | .dispon, [] => some .dispon
  | .dispoff, [] => some .dispoff
  | .wstr, [.text cs] => (asciiCodes cs).map .wstr
  | .wnum, [.bare cs] => (signedNumber cs).map .wnum
  | _, _ => none

/-- The line that a list of tokens makes: one command, or none. -/
def parseTokens : List Token → Option AsmLine
  | [] => some .blank
  | .bare cs :: ts => (mnemonicOf cs).bind fun m => lineOf m ts
  | _ :: _ => none

/-- The command words of a line of text (30_encoding.md R101, R102). -/
def assembleText (line : List Char) : Option (List CmdWord) :=
  ((lex (.bare []) line).bind parseTokens).bind assemble

/-- The command words of a program, one command per line (30_encoding.md R101). -/
def assembleProgram : List (List Char) → Option (List CmdWord)
  | [] => some []
  | line :: lines => (assembleText line).bind fun ws => (assembleProgram lines).map (ws ++ ·)

end Sys2Proof.Machine
end

