-- ==== Sys2Proof/Safety.lean ====
section
/-! DEFINITION. The terms claims are stated in: runs of edges, what the host and the LCD do during one, the traces the
spec gives, and the invariants of the bus lines and of the counters. -/

namespace Sys2Proof.Machine

/-! ## Runs -/

/-- `n` rising edges, stopping at the first stop. -/
def runFor : Nat → State → Host.Outcome State Fault Refusal
  | 0, s => .next s
  | n + 1, s =>
    match step s with
    | .next t => runFor n t
    | .fault r => .fault r
    | .refused r => .refused r

/-- `n` edges lead from `s` to `t`, and until then the block is not in IDLE: it is busy for `n` cycles
(70_reset_and_hazards.md R245). -/
def BusyUntil (n : Nat) (s t : State) : Prop :=
  runFor n s = .next t ∧ ∀ m, m < n → ∃ u, runFor m s = .next u ∧ u.seq ≠ .idle

/-! ## The host during a run -/

/-- No reset arrives in the next `n` edges, if no command is accepted in them. -/
def quietFor : Nat → List HostMove → Bool
  | 0, _ => true
  | _ + 1, [] => true
  | n + 1, m :: moves => !m.rst && quietFor n (hostAfterEdge (m :: moves))

/-- The host's moves after `n` edges at which no command is accepted. -/
def hostAfterEdges : Nat → List HostMove → List HostMove
  | 0, moves => moves
  | n + 1, moves => hostAfterEdges n (hostAfterEdge moves)

/-- `s` after `n` edges of the host at which no command is accepted. -/
def State.ticks (n : Nat) (s : State) : State := { s with host := hostAfterEdges n s.host }

/-! ## The LCD during a run (20_memory.md R77) -/

/-- What the data lines read at the sample number `j` from now, in a busy-flag wait: what the LCD drives, or with no
LCD the 1s of the pull-ups (20_memory.md R77). -/
def State.sampleAt (s : State) (j : Nat) : Nibble :=
  if s.lcdPresent then s.lcdAnswers[j]?.getD (Config.lcdNibble (s.draws + j)) else 0xF#4

/-- The busy flag at the sample number `j` from now. -/
def State.busyAt (s : State) (j : Nat) : Bool := (s.sampleAt j).getLsbD s.params.busyBit

/-- From the sample number `o` on, a busy-flag wait makes exactly `k` polls and ends OK (43_busy_wait.md R155). -/
def State.ReadyAfter (s : State) (o k : Nat) : Prop :=
  1 ≤ k ∧ (∀ j, j + 1 < k → s.busyAt (o + j) = true) ∧ s.busyAt (o + (k - 1)) = false ∧
  (s.params.pollLimit = 0 ∨ k ≤ s.params.pollLimit)

/-- From the sample number `o` on, a busy-flag wait times out (43_busy_wait.md R156). -/
def State.TimesOut (s : State) (o : Nat) : Prop :=
  s.params.pollLimit ≠ 0 ∧ ∀ j, j < s.params.pollLimit → s.busyAt (o + j) = true

/-- The scripted answers after `k` samples: only an LCD that is there uses them up. -/
def State.answersAfter (s : State) (k : Nat) : List Nibble :=
  if s.lcdPresent then s.lcdAnswers.drop k else s.lcdAnswers

/-- `polls` after a wait of `k` polls: a block with no limit has no such register (43_busy_wait.md R151). -/
def State.pollsAfter (s : State) (k : Nat) : Nat := if s.params.pollLimit = 0 then s.polls else k

/-! ## Reset -/

/-- Every register of the block has its reset value (10_state.md R42). -/
def State.AtReset (s : State) : Prop :=
  s.seq = .idle ∧ s.cmd_r = 0 ∧ s.init_done = false ∧ s.dir = .unconf ∧ s.ctl_oe = false ∧
  s.rs_o = false ∧ s.rw_o = false ∧ s.e_o = false ∧ s.d_o = 0b0000#4 ∧ s.d_oe = false ∧ s.d_pu = false ∧
  s.cnt = 0 ∧ s.polls = 0 ∧ s.busy_r = false ∧ s.tx_byte = 0 ∧
  s.err_illegal = false ∧ s.err_noinit = false ∧ s.err_timeout = false ∧ s.status = 0x01#8

/-! ## The lines ready for a transfer -/

/-- The preconditions of `NIBBLE` and `XFER` (41_byte_transfer.md R134), with the pull-up off as `CFG` and every wait
leave it. -/
def State.WriteReady (s : State) : Prop :=
  s.ctl_oe = true ∧ s.dir = .out ∧ s.d_oe = true ∧ s.d_pu = false ∧ s.rw_o = false ∧ s.e_o = false

end Sys2Proof.Machine

namespace Sys2Proof

/-! ## Cycle counts (70_reset_and_hazards.md R246) -/

/-- The cycles of `PULSE`: S + H + 2. -/
def Params.pulseCycles (p : Params) : Nat := p.nSettle + p.nHold + 2

/-- The cycles of `NIBBLE`: S + H + 3. -/
def Params.nibbleCycles (p : Params) : Nat := p.nSettle + p.nHold + 3

/-- The cycles of `XFER`: 2S + 2H + 7. -/
def Params.xferCycles (p : Params) : Nat := 2 * p.nSettle + 2 * p.nHold + 7

/-- The cycles of one poll: 2S + 2H + 5. -/
def Params.pollCycles (p : Params) : Nat := 2 * p.nSettle + 2 * p.nHold + 5

/-- The cycles of `BUSY_WAIT` with `k` polls: 5 + k(2S + 2H + 5). -/
def Params.waitCycles (p : Params) (k : Nat) : Nat := 5 + k * p.pollCycles

/-- The cycles of INIT from `CFG` to the end of the mode-switch nibble (70_reset_and_hazards.md R248). -/
def Params.coldStartCycles (p : Params) : Nat := 1 + p.nPwr + 4 * p.nibbleCycles + p.nPor1 + p.nPor2 + p.nPor3

/-- The cycles of byte transfers, each with a wait of so many polls. -/
def Params.bytesCycles (p : Params) : List Nat → Nat
  | [] => 0
  | k :: ks => p.xferCycles + p.waitCycles k + p.bytesCycles ks

/-- The busy time of a byte command whose wait makes `k` polls (70_reset_and_hazards.md R247). -/
def Params.byteBusy (p : Params) (k : Nat) : Nat := 2 * p.nSettle + 2 * p.nHold + 13 + k * p.pollCycles

/-- The busy time of an INIT that completes with `k` polls in all (70_reset_and_hazards.md R248). -/
def Params.initBusy (p : Params) (k : Nat) : Nat :=
  67 + 12 * p.nSettle + 12 * p.nHold + p.nPwr + p.nPor1 + p.nPor2 + p.nPor3 + k * p.pollCycles

end Sys2Proof

namespace Sys2Proof.Machine

/-! ## Bus traces (20_memory.md R66) -/

/-- The events of `PULSE` (42_enable_pulse.md R140). -/
def pulseEvents : List Event := [.e true, .e false]

/-- The events of `NIBBLE(n)` (41_byte_transfer.md R131). -/
def nibbleEvents (n : Nibble) : List Event := .d n :: pulseEvents

/-- The events of `XFER(b, rs)` (41_byte_transfer.md R132). -/
def xferEvents (b : Byte) (rs : Bool) : List Event :=
  .rs rs :: (nibbleEvents (highNibble b) ++ nibbleEvents (lowNibble b))

/-- The events of a poll that samples `b` (43_busy_wait.md R151). -/
def pollEvents (b : Bool) : List Event := [.e true, .smp b, .e false] ++ pulseEvents

/-- The events of `k` polls that all sample 1. -/
def busyPollEvents : Nat → List Event
  | 0 => []
  | k + 1 => pollEvents true ++ busyPollEvents k

/-- The events of the entry of a wait (43_busy_wait.md R152). -/
def waitEntryEvents : List Event := [.dirIn, .rw true, .rs false]

/-- The events of the exit of a wait (43_busy_wait.md R157). -/
def waitExitEvents : List Event := [.rw false, .dirOut]

/-- The events of a wait of `k` polls that ends OK (43_busy_wait.md R155). -/
def waitEvents (k : Nat) : List Event := waitEntryEvents ++ busyPollEvents (k - 1) ++ pollEvents false ++ waitExitEvents

/-- The events of a wait of `k` polls that times out (43_busy_wait.md R156). -/
def timeoutEvents (k : Nat) : List Event := waitEntryEvents ++ busyPollEvents k ++ waitExitEvents

/-- The event of an init delay of `n` cycles: none for 0 (40_init_sequence.md R113, R116). -/
def delayEvents (n : Nat) : List Event := if n = 0 then [] else [.wait n]

/-- The events of INIT up to the mode-switch nibble (40_init_sequence.md R112 to R117). -/
def coldStartEvents (p : Params) : List Event :=
  [.cfg] ++ delayEvents p.nPwr ++
  nibbleEvents 0x3#4 ++ delayEvents p.nPor1 ++ nibbleEvents 0x3#4 ++ delayEvents p.nPor2 ++
  nibbleEvents 0x3#4 ++ delayEvents p.nPor3 ++ nibbleEvents 0x2#4

/-- The latch events of `XFER(b, rs)` (41_byte_transfer.md R130). -/
def xferLatches (b : Byte) (rs : Bool) : List (Bool × Nibble) := [(rs, highNibble b), (rs, lowNibble b)]

/-- The latch events of INIT up to the mode switch (40_init_sequence.md R114 to R117). -/
def coldStartLatches : List (Bool × Nibble) := [(false, 0x3#4), (false, 0x3#4), (false, 0x3#4), (false, 0x2#4)]

/-! ## What the procedures leave -/

/-- The block after `NIBBLE(n)` on ready lines (41_byte_transfer.md R131). -/
def State.afterNibble (s : State) (n : Nibble) : State :=
  { s with
    d_o := n
    cnt := 0
    trace := s.trace ++ nibbleEvents n
    latched := s.latched ++ [(s.rs_o, n)] }

/-- The block after `XFER(b, rs)` on ready lines (41_byte_transfer.md R132). -/
def State.afterXfer (s : State) (b : Byte) (rs : Bool) : State :=
  { s with
    rs_o := rs
    tx_byte := b
    d_o := lowNibble b
    cnt := 0
    trace := s.trace ++ xferEvents b rs
    latched := s.latched ++ xferLatches b rs }

/-- The block after a `BUSY_WAIT` of `k` polls that ends OK: the lines are as on ready lines before it, with RS = 0
(43_busy_wait.md R157 to R159). -/
def State.afterWait (s : State) (k : Nat) : State :=
  { s with
    rs_o := false
    busy_r := false
    cnt := 0
    polls := s.pollsAfter k
    lcdAnswers := s.answersAfter k
    draws := s.draws + k
    trace := s.trace ++ waitEvents k }

/-- The block after a `BUSY_WAIT` that times out (43_busy_wait.md R156 to R159, 60_exceptions.md R204). -/
def State.afterTimeout (s : State) : State :=
  { s with
    rs_o := false
    busy_r := true
    err_timeout := true
    cnt := 0
    polls := s.params.pollLimit
    lcdAnswers := s.answersAfter s.params.pollLimit
    draws := s.draws + s.params.pollLimit
    trace := s.trace ++ timeoutEvents s.params.pollLimit }

/-- The block after INIT's steps up to the mode-switch nibble (40_init_sequence.md R112 to R117). -/
def State.afterColdStart (s : State) : State :=
  { s with
    init_done := false
    ctl_oe := true
    rs_o := false
    rw_o := false
    e_o := false
    d_o := 0x2#4
    d_oe := true
    d_pu := false
    dir := .out
    cnt := 0
    trace := s.trace ++ coldStartEvents s.params
    latched := s.latched ++ coldStartLatches }

/-- The bytes of INIT, in order (40_init_sequence.md R118 to R121). -/
def initBytes : List Byte := [0x28#8, 0x80#8, 0x01#8, 0x0E#8]

/-- The block after INIT has sent these bytes, each with a wait of so many polls. -/
def State.afterInitBytes (s : State) : List (Byte × Nat) → State
  | [] => s
  | (b, k) :: stages => ((s.afterXfer b false).afterWait k).afterInitBytes stages

/-- From the sample number `o` on, the waits end OK after these numbers of polls, one after another. -/
def State.ReadyInTurn (s : State) : Nat → List Nat → Prop
  | _, [] => True
  | o, k :: ks => s.ReadyAfter o k ∧ s.ReadyInTurn (o + k) ks

/-! ## What one bus event changes -/

/-- What the trace says of the lines, the direction and the last sample: the view a bus event changes. -/
structure BusView where
  rs : Bool
  rw : Bool
  e : Bool
  d : Nibble
  dir : Dir
  busy : Bool
  deriving DecidableEq, Repr

/-- The view of a state. -/
def State.busView (s : State) : BusView :=
  { rs := s.rs_o, rw := s.rw_o, e := s.e_o, d := s.d_o, dir := s.dir, busy := s.busy_r }

/-- What one event changes (00_scope.md R11, 40_init_sequence.md R112). -/
def BusView.after (v : BusView) : Event → BusView
  | .cfg => { v with rs := false, rw := false, e := false, d := 0, dir := .out }
  | .rs b => { v with rs := b }
  | .rw b => { v with rw := b }
  | .e b => { v with e := b }
  | .d n => { v with d := n }
  | .dirIn => { v with dir := .inp }
  | .dirOut => { v with dir := .out }
  | .smp b => { v with busy := b }
  | .wait _ => v

end Sys2Proof.Machine

namespace Sys2Proof

/-! ## The bytes of the commands (30_encoding.md R93) -/

/-- The byte and the RS value that a byte command transfers; INIT and the reserved opcode are no byte command. -/
def Instr.byteSent : Instr → Option (Byte × Bool)
  | .init _ _ => none
  | .wdata _ b => some (b, true)
  | .winstr _ b => some (b, false)
  | .setcur row col => some (Machine.cursorByte col row, false)
  | .clear _ _ => some (0x01#8, false)
  | .home _ _ => some (0x80#8, false)
  | .display _ a => some (Machine.displayByte a, false)
  | .reserved _ _ => none

end Sys2Proof

namespace Sys2Proof.Machine

/-! ## The discipline of the bus lines (20_memory.md R61, 10_state.md R27, R41; 70_reset_and_hazards.md R240, R241) -/

/-- The control lines, the output enables and the direction. -/
structure Lines where
  ctl_oe : Bool
  rs : Bool
  rw : Bool
  e : Bool
  d_oe : Bool
  d_pu : Bool
  dir : Dir
  deriving DecidableEq, Repr

/-- The lines of a state. -/
def State.lines (s : State) : Lines :=
  { ctl_oe := s.ctl_oe, rs := s.rs_o, rw := s.rw_o, e := s.e_o, d_oe := s.d_oe, d_pu := s.d_pu, dir := s.dir }

/-- Ready for a transfer (41_byte_transfer.md R134). -/
def Lines.writing (l : Lines) : Bool :=
  l.ctl_oe && l.d_oe && !l.d_pu && l.dir == .out && !l.rw && !l.e

/-- Ready for a poll: the data lines are pulled up and not driven, and RS = 0, RW = 1 (43_busy_wait.md R152). -/
def Lines.polling (l : Lines) : Bool :=
  l.ctl_oe && !l.d_oe && l.d_pu && l.dir == .inp && l.rw && !l.rs && !l.e

/-- What each step requires of the lines: E rises and falls only for a write with the data lines driven or for a status
read (20_memory.md R61), and the two sides never drive the data lines at once (70_reset_and_hazards.md R241). -/
def Lines.allows (l : Lines) : Step → Bool
  | .cfg => !l.e
  | .select _ _ => l.writing
  | .drive _ => l.writing
  | .wait _ => true
  | .enable true => l.ctl_oe && !l.e && (if l.rw then !l.rs && !l.d_oe else l.d_oe)
  | .enable false => l.ctl_oe && l.e && (if l.rw then !l.rs && !l.d_oe else l.d_oe)
  | .dirIn => l.writing
  | .readWrite true => !l.e && !l.d_oe
  | .readWrite false => !l.e && !l.d_oe
  | .selectInstr => !l.e && l.rw && !l.d_oe
  | .sample => l.ctl_oe && l.e && l.rw && !l.rs && !l.d_oe && l.d_pu
  | .dirOut _ => !l.e && !l.rw && !l.d_oe

/-- What each step does to the lines. -/
def Lines.after (l : Lines) : Step → Lines
  | .cfg => { ctl_oe := true, rs := false, rw := false, e := false, d_oe := true, d_pu := false, dir := .out }
  | .select rs _ => { l with rs := rs }
  | .drive _ => l
  | .wait _ => l
  | .enable v => { l with e := v }
  | .dirIn => { l with d_oe := false, d_pu := true, dir := .inp }
  | .readWrite v => { l with rw := v }
  | .selectInstr => { l with rs := false }
  | .sample => l
  | .dirOut _ => { l with d_oe := true, d_pu := false, dir := .out }

/-- The lines after a busy-flag wait (43_busy_wait.md R157, R158). -/
def Lines.afterWait : Lines :=
  { ctl_oe := true, rs := false, rw := false, e := false, d_oe := true, d_pu := false, dir := .out }

/-- A step list keeps the discipline from these lines on: each step finds what it requires, a poll is tested with the
lines ready for another, and the command ends with the bus ready for a write (10_state.md R41, 20_memory.md R82). -/
def Lines.keeps (l : Lines) : List Item → Bool
  | [] => l.writing
  | .step x :: rest => l.allows x && (l.after x).keeps rest
  | .pollTest _ :: rest => l.polling && Lines.afterWait.keeps rest
  | .ready :: _ => l.writing

/-- The invariant of the bus lines. The direction is the one the output enables say (10_state.md R27), the two sides of
the bus never drive it at once (70_reset_and_hazards.md R241), outside a command E = 0, RW = 0 and the direction is not
IN (10_state.md R30, R41), and the rest of a running command keeps the discipline. -/
structure State.LineInv (s : State) : Prop where
  ctl : s.ctl_oe = true ↔ s.dir ≠ .unconf
  oe : s.d_oe = true ↔ s.dir = .out
  pu : s.d_pu = true ↔ s.dir = .inp
  noContention : s.d_oe = true → s.rw_o = false
  idle : s.seq = .idle ∨ s.seq = .decode →
    s.e_o = false ∧ s.rw_o = false ∧ s.dir ≠ .inp ∧ (s.init_done = true → s.dir = .out)
  run : ∀ current rest, s.seq = .run current rest → s.dir ≠ .unconf ∧ s.lines.keeps rest = true

/-! ## The counters (00_scope.md R7, 44_command_api.md R178) -/

/-- No sample of the rest of a step list takes the poll counter above the limit, from `n` polls on. -/
def pollsFit (limit : Nat) : Nat → List Item → Bool
  | _, [] => true
  | _, .step .dirIn :: rest => pollsFit limit 0 rest
  | n, .step .sample :: rest => n < limit && pollsFit limit (n + 1) rest
  | n, .step _ :: rest => pollsFit limit n rest
  | n, .pollTest _ :: rest => n ≤ limit && pollsFit limit limit rest
  | _, .ready :: _ => true

/-- The invariant of the counters: each holds its value in the width R7 gives it, so none wraps. -/
structure State.CounterInv (s : State) : Prop where
  cnt : s.cnt < 2 ^ s.params.cntW
  noPolls : s.params.pollLimit = 0 → s.polls = 0
  polls : s.params.pollLimit ≠ 0 → s.polls ≤ s.params.pollLimit
  run : s.params.pollLimit ≠ 0 →
    ∀ current rest, s.seq = .run current rest → pollsFit s.params.pollLimit s.polls rest = true

/-! ## How a wait ends with TIMEOUT (43_busy_wait.md R156, 60_exceptions.md R204) -/

/-- A wait in this block has reached its limit and its last sample was 1. -/
def State.LimitReached (s : State) : Prop :=
  s.params.pollLimit ≠ 0 ∧ s.polls = s.params.pollLimit ∧ s.busy_r = true

/-- The last step of a wait that timed out is nowhere in a step list. -/
def noTimeout (items : List Item) : Prop := .step (.dirOut .timeout) ∉ items

/-- The last step of a wait that timed out stands in a running step list only right after the step `RW=0`, and then the
wait has reached its limit. -/
def State.TimeoutInv (s : State) : Prop :=
  ∀ current rest, s.seq = .run current rest →
    (current = .dirOut .timeout → s.LimitReached) ∧
    (noTimeout rest ∨
      ∃ after, rest = .step (.dirOut .timeout) :: after ∧ current = .readWrite false ∧ noTimeout after ∧ s.LimitReached)

/-! ## The end of INIT (40_init_sequence.md R121) -/

/-- Moving on along this step list ends INIT at once: the entry `.ready` comes after waits of 0 cycles alone. -/
def State.atReady (s : State) : List Item → Bool
  | [] => false
  | .step x :: rest => s.skips x && s.atReady rest
  | .pollTest _ :: _ => false
  | .ready :: _ => true

end Sys2Proof.Machine
end

