-- ==== Sys2Proof/Certificates/Slice0/Obligations.lean ====
section
/-! DEFINITION. The statements for the provers. Each docstring names the rules of spec/ it formalises. -/

open Sys2Proof Sys2Proof.Machine

/-! ## Encoding -/

/-- Decoding and encoding are inverse in both directions: no bit of a command or of a command word is dropped
(30_encoding.md R90, R92). -/
def Obligations.DecodeAndEncodeAreInverse : Prop :=
  (∀ i, decode (encode i) = i) ∧ ∀ w, encode (decode w) = w

/-- The opcode map: what a word is, from the value of its bits 18:16, with its other two fields as they stand
(30_encoding.md R92). -/
def Obligations.OpcodeMap : Prop :=
  ∀ op : BitVec 3, ∀ arg1 arg0 : Byte,
    decode (op ++ arg1 ++ arg0) =
      match op.toNat with
      | 0 => .init arg1 arg0
      | 1 => .wdata arg1 arg0
      | 2 => .winstr arg1 arg0
      | 3 => .setcur arg1 arg0
      | 4 => .clear arg1 arg0
      | 5 => .home arg1 arg0
      | 6 => .display arg1 arg0
      | _ => .reserved arg1 arg0

/-- A few words written out from the table decode to the commands they stand for (30_encoding.md R101 and
95_test_vectors.md, vectors ENC-1 to ENC-13). -/
def Obligations.TableWordsDecode : Prop :=
  decode 0b000_00000000_00000000#19 = .init 0 0 ∧
  decode 0b001_00000000_01000001#19 = .wdata 0 0x41 ∧
  decode 0b010_00000000_00000001#19 = .winstr 0 0x01 ∧
  decode 0b011_00000001_00000101#19 = .setcur 1 5 ∧
  decode 0b100_10101011_11001101#19 = .clear 0xAB 0xCD ∧
  decode 0b101_00000000_00000000#19 = .home 0 0 ∧
  decode 0b110_00000000_00000001#19 = .display 0 1 ∧
  decode 0b111_00000000_00000000#19 = .reserved 0 0

/-- A number is a command word exactly when it fits in the 19 wires of the port (30_encoding.md R90; log entry 14 for
the refusal of any other number, which is the model's choice). -/
def Obligations.OnlyNineteenBitNumbersAreCommands : Prop :=
  ∀ n, (n < 2 ^ 19 → ∃ i, decodeNumber n = .ok i ∧ (encode i).toNat = n) ∧
    (2 ^ 19 ≤ n → decodeNumber n = .error .tooWide)

/-- Ignored bits change nothing: two words that differ only in ignored bits begin the same command in the same way
(30_encoding.md R96). -/
def Obligations.IgnoredBitsChangeNothing : Prop :=
  ∀ s : State, ∀ a b a' b' : Byte,
    exec (.init a b) s = exec (.init a' b') s ∧
    exec (.wdata a b) s = exec (.wdata a' b) s ∧
    exec (.winstr a b) s = exec (.winstr a' b) s ∧
    exec (.clear a b) s = exec (.clear a' b') s ∧
    exec (.home a b) s = exec (.home a' b') s ∧
    (b.getLsbD 0 = b'.getLsbD 0 → exec (.display a b) s = exec (.display a' b') s)

/-! ## Operands -/

/-- `cursor_byte`: the formula of the first line of R94, which is the formula of its second line, for every 8-bit
column and row (30_encoding.md R94). -/
def Obligations.CursorByteFormula : Prop :=
  ∀ col row : Byte,
    cursorByte col row = ((0x80#16 ||| (row.zeroExtend 16 <<< 6)) ||| col.zeroExtend 16).truncate 8 ∧
    cursorByte col row = 0x80#8 ||| (BitVec.ofBool (row.getLsbD 0)).zeroExtend 8 <<< 6 ||| (col &&& 0x7F#8)

/-- For the two rows and 16 columns of the source the byte is `0x80 | (row << 6) | col`, and the byte of HOME is that of
row 0 and column 0 (30_encoding.md R93, R94). -/
def Obligations.CursorByteInRange : Prop :=
  (∀ col row : Byte, col.toNat ≤ 15 → row.toNat ≤ 1 →
    (cursorByte col row).toNat = 0x80 + 64 * row.toNat + col.toNat) ∧
  cursorByte 0 0 = 0x80#8 ∧ homeByte = 0x80#8

/-- `display_byte`: 0x0E when bit 0 is 1, else 0x08, and the on value is the last byte of INIT (30_encoding.md R95). -/
def Obligations.DisplayByteDependsOnBitZero : Prop :=
  (∀ a : Byte, (a.getLsbD 0 = true → displayByte a = 0x0E#8) ∧ (a.getLsbD 0 = false → displayByte a = 0x08#8)) ∧
  initBytes.getLast? = some 0x0E#8

/-! ## Reset -/

/-- Every register of the block, and the status word it shows, has its reset value in the reset state and after any edge
with `rst` = 1 (10_state.md R42). -/
def Obligations.ResetRegisters : Prop :=
  State.reset.AtReset ∧ ∀ s : State, s.rst = true → ∃ t, step s = .next t ∧ t.AtReset

/-- An edge with `rst` = 1 wins over whatever the sequencer does and whatever is offered: `cmd_ready` is 0 at that
edge, the command in progress and one offered are lost, all seven lines are released, and what is no register of the
block stays, but for the host's move, which is used up (70_reset_and_hazards.md R230, R231; 60_exceptions.md R207;
log entry 10 for the trace, which is the model's choice). The model's choices here are the trace, the latch events,
the LCD and the host's later moves stay: log entries 3, 4, 5, 10 and 11. -/
def Obligations.ResetWinsOverEverything : Prop :=
  ∀ s : State, s.rst = true →
    s.cmdReady = false ∧ s.accepted = none ∧
    ∃ t, step s = .next t ∧
      t = { State.reset with
            params := s.params, host := s.host.tail, lcdPresent := s.lcdPresent, lcdAnswers := s.lcdAnswers
            draws := s.draws, trace := s.trace, latched := s.latched } ∧
      t.lcdRs = none ∧ t.lcdRw = none ∧ t.lcdE = none ∧ t.lcdD = none ∧ t.d_pu = false

/-! ## The host port -/

/-- The acceptance edge: in IDLE with `rst` = 0, an offered word is latched into `cmd_r` and the sequencer goes to
DECODE; with none offered, every register keeps its value (20_memory.md R80). The model's choices here are how the
host's offers are held in State: log entry 3. -/
def Obligations.AcceptanceEdge : Prop :=
  ∀ s : State, s.seq = .idle → s.rst = false →
    (∀ w, s.hostMove.offered = some w →
      step s = .next { s with cmd_r := w, seq := .decode, host := s.host.tail }) ∧
    (s.hostMove.offered = none → step s = .next { s with host := hostAfterEdge s.host })

/-- Outside IDLE an edge with `rst` = 0 ignores `cmd_valid` and `cmd_word`: whatever the host does, the block does
the same (20_memory.md R80). The model's choices here are how the host's offers are held in State: log entry 3. -/
def Obligations.BusyBlockIgnoresOffers : Prop :=
  ∀ (s : State) (h h' : List HostMove), s.seq ≠ .idle →
    ({ s with host := h } : State).rst = false → ({ s with host := h' } : State).rst = false →
    ∃ t : State,
      step { s with host := h } = .next { t with host := hostAfterEdge h } ∧
      step { s with host := h' } = .next { t with host := hostAfterEdge h' }

/-- In DECODE an edge with `rst` = 0 runs the command that `cmd_r` decodes to, and the host's moves go on beside it
(30_encoding.md R98). The word that `withFetchWord` places is run by the next edge. The model's choices here are the
host's moves beside it and withFetchWord: log entries 3 and 13. -/
def Obligations.StepRunsTheDecodedCommand : Prop :=
  (∀ s : State, s.seq = .decode → s.rst = false →
    step s = exec (decode s.cmd_r) { s with host := hostAfterEdge s.host }) ∧
  ∀ (s : State) (w : CmdWord),
    step (s.withFetchWord 19 w.toNat) = exec (decode w) { s with cmd_r := w, seq := .decode }

/-- No edge stops the machine: the block has no trap (60_exceptions.md R200, R208). -/
def Obligations.EveryEdgeHasANextState : Prop :=
  ∀ s : State, ∃ t, step s = .next t

/-- A wait with `n` cycles left keeps every register but the counter for `n` edges and then moves on along the step
list (10_state.md R24, R34; 70_reset_and_hazards.md R245). The model's choices here are that cnt counts the cycles
left down to 0, and the host's moves: log entries 3 and 7. -/
def Obligations.WaitLastsItsCycles : Prop :=
  ∀ (s : State) (d : Delay) (rest : List Item) (n : Nat),
    s.seq = .run (.wait d) rest → s.cnt = n + 1 → quietFor (n + 1) s.host = true →
    (∀ m, m ≤ n → runFor m s = .next (({ s with cnt := n + 1 - m } : State).ticks m)) ∧
    runFor (n + 1) s = .next ((({ s with cnt := 0 } : State).ticks (n + 1)).proceed rest)

/-! ## The faults in DECODE -/

/-- ILLEGAL: the reserved opcode sets its sticky flag and ends, whatever its other bits and `init_done` hold, and no
other register changes (60_exceptions.md R201, R202). -/
def Obligations.ReservedOpcodeRaisesIllegal : Prop :=
  ∀ s : State,
    let t : State := { s with err_illegal := true, seq := .idle }
    (∀ arg1 arg0 : Byte, exec (.reserved arg1 arg0) s = .next t) ∧
    (∀ w : CmdWord, opField w = 0b111#3 → exec (decode w) s = .next t) ∧ t.status.getLsbD 4 = true

/-- NOINIT: with `init_done` = 0 every command but INIT and the reserved one sets its sticky flag and ends, and no other
register changes (60_exceptions.md R201, R203). -/
def Obligations.CommandsBeforeInitRaiseNoinit : Prop :=
  ∀ s : State, s.init_done = false →
    let t : State := { s with err_noinit := true, seq := .idle }
    (∀ arg1 arg0 : Byte,
      exec (.wdata arg1 arg0) s = .next t ∧ exec (.winstr arg1 arg0) s = .next t ∧
      exec (.setcur arg1 arg0) s = .next t ∧ exec (.clear arg1 arg0) s = .next t ∧
      exec (.home arg1 arg0) s = .next t ∧ exec (.display arg1 arg0) s = .next t) ∧
    (∀ w : CmdWord, opField w ≠ 0b000#3 → opField w ≠ 0b111#3 → exec (decode w) s = .next t) ∧
    t.status.getLsbD 5 = true

/-! ## The first step of each command -/

/-- INIT begins with `CFG`, whatever `init_done` holds: the writes and the event of R112, with every other register
kept (40_init_sequence.md R112, R123). The model's choices here are the rest of the step list is held in seq: log
entry 9. -/
def Obligations.InitBeginsWithCfg : Prop :=
  ∀ (arg1 arg0 : Byte) (s : State), ∃ rest,
    exec (.init arg1 arg0) s = .next
      { s with
        init_done := false, ctl_oe := true, rs_o := false, rw_o := false, e_o := false, d_o := 0b0000#4, d_oe := true
        d_pu := false, dir := .out, trace := s.trace ++ [.cfg], seq := .run .cfg rest }

/-- Each byte command begins with the first step of its `XFER`: RS and `tx_byte`, with every other register kept
(30_encoding.md R93; 41_byte_transfer.md R132; 44_command_api.md R170 to R176). The model's choices here are the rest
of the step list is held in seq: log entry 9. -/
def Obligations.ByteCommandsBeginWithSelect : Prop :=
  ∀ (i : Instr) (b : Byte) (rs : Bool) (s : State), i.byteSent = some (b, rs) → s.init_done = true → ∃ rest,
    exec i s = .next
      { s with rs_o := rs, tx_byte := b, trace := s.trace ++ [.rs rs], seq := .run (.select rs b) rest }

/-! ## The procedures -/

/-- `PULSE` from E = 0: E stays 0 for the settle cycles, is 1 for H + 1 cycles, and is 0 for the last of its S + H + 2
cycles (42_enable_pulse.md R140; 70_reset_and_hazards.md R246). -/
def Obligations.EnableIsHighForHoldPlusOneCycles : Prop :=
  ∀ (s : State) (rest : List Item) (n : Nat) (u : State),
    s.params.Legal → s.e_o = false → quietFor s.params.pulseCycles s.host = true →
    runFor n (s.proceed (steps pulse ++ rest)) = .next u → n < s.params.pulseCycles →
    u.e_o = (decide (s.params.nSettle ≤ n) && decide (n < s.params.nSettle + s.params.nHold + 1))

/-- A poll from E = 0: E is high for the H + 2 cycles after the settle cycles of the sampling pulse (the `E=1` step, the
hold and the sampling step), and for the H + 1 cycles after the settle cycles of the dummy pulse
(43_busy_wait.md R153, R154; 70_reset_and_hazards.md R246). -/
def Obligations.EnableIsHighLongerInASamplingPulse : Prop :=
  ∀ (s : State) (rest : List Item) (n : Nat),
    s.params.Legal → s.e_o = false → quietFor s.params.pollCycles s.host = true → n < s.params.pollCycles →
    ∃ u, runFor n (s.proceed (steps poll ++ rest)) = .next u ∧
      u.e_o =
        let low := s.params.nSettle + s.params.nHold + 2
        (decide (s.params.nSettle ≤ n ∧ n < low) ||
          decide (low + 1 + s.params.nSettle ≤ n ∧ n < low + 1 + s.params.nSettle + s.params.nHold + 1))

/-- `PULSE` with RW = 1 samples nothing and writes no register but `e_o` (42_enable_pulse.md R144). The model's
choices here are cnt = 0 at the end and the host's moves: log entries 3 and 7. -/
def Obligations.ReadPulseStoresNothing : Prop :=
  ∀ (s : State) (rest : List Item),
    s.params.Legal → s.ctl_oe = true → s.rw_o = true → s.e_o = false →
    quietFor s.params.pulseCycles s.host = true →
    BusyUntil s.params.pulseCycles (s.proceed (steps pulse ++ rest))
      ((({ s with cnt := 0, trace := s.trace ++ pulseEvents } : State).ticks s.params.pulseCycles).proceed rest)

/-- `NIBBLE(n)` on ready lines: one latch event `(rs_o, n)`, in S + H + 3 cycles, and nothing else
(41_byte_transfer.md R131; 70_reset_and_hazards.md R246). The model's choices here are cnt = 0 at the end, the host's
moves and the list of latch events: log entries 3, 7 and 11. -/
def Obligations.NibbleIsOneLatchEvent : Prop :=
  ∀ (s : State) (n : Nibble) (rest : List Item),
    s.params.Legal → s.WriteReady → quietFor s.params.nibbleCycles s.host = true →
    BusyUntil s.params.nibbleCycles (s.proceed (steps (nibble (.fixed n)) ++ rest))
      (((s.afterNibble n).ticks s.params.nibbleCycles).proceed rest)

/-- `XFER(b, rs)` on ready lines: exactly two latch events, the high nibble first, in 2S + 2H + 7 cycles, and nothing
else (41_byte_transfer.md R130, R132, R135; 20_memory.md R62). The model's choices here are cnt = 0 at the end, the
host's moves and the list of latch events: log entries 3, 7 and 11. -/
def Obligations.ByteTransferIsTwoLatchEvents : Prop :=
  ∀ (s : State) (b : Byte) (rs : Bool) (rest : List Item),
    s.params.Legal → s.WriteReady → quietFor s.params.xferCycles s.host = true →
    highNibble b ++ lowNibble b = b ∧
    BusyUntil s.params.xferCycles (s.proceed (steps (xfer b rs) ++ rest))
      (((s.afterXfer b rs).ticks s.params.xferCycles).proceed rest)

/-- `BUSY_WAIT` on ready lines ends OK after the first poll that samples 0, and leaves the lines ready again, with RS
= 0 and `busy_r` = 0 (43_busy_wait.md R151, R155, R157 to R159; 70_reset_and_hazards.md R246). The model's choices
here are the scripted and free answers of the LCD, cnt = 0 at the end and the host's moves: log entries 3, 4, 5 and
7. -/
def Obligations.BusyWaitEndsAtTheFirstReadySample : Prop :=
  ∀ (s : State) (k : Nat) (onTimeout : OnTimeout) (rest : List Item),
    s.params.Legal → s.WriteReady → s.ReadyAfter 0 k → quietFor (s.params.waitCycles k) s.host = true →
    BusyUntil (s.params.waitCycles k) (s.proceed (busyWait onTimeout ++ rest))
      (((s.afterWait k).ticks (s.params.waitCycles k)).proceed rest)

/-- `BUSY_WAIT` with a limit ends with TIMEOUT after that many busy samples: the same exit, `err_timeout` set and
`busy_r` = 1 (43_busy_wait.md R156, R157, R159; 60_exceptions.md R204). INIT's rest is then dropped, and a byte
command's is not. The model's choices here are the scripted and free answers of the LCD, cnt = 0 at the end and the
host's moves: log entries 3, 4, 5 and 7. -/
def Obligations.BusyWaitTimesOutAtTheLimit : Prop :=
  ∀ (s : State) (onTimeout : OnTimeout) (rest : List Item),
    s.params.Legal → s.WriteReady → s.TimesOut 0 →
    quietFor (s.params.waitCycles s.params.pollLimit) s.host = true →
    BusyUntil (s.params.waitCycles s.params.pollLimit) (s.proceed (busyWait onTimeout ++ rest))
      ((s.afterTimeout.ticks (s.params.waitCycles s.params.pollLimit)).proceed
        (match onTimeout with
          | .carryOn => rest
          | .abort => []))

/-! ## Whole commands -/

/-- What a byte command does from DECODE to IDLE when the LCD answers ready at poll `k`: `exec` answers the command's
first step, and `byteBusy k - 1` more edges run the rest: the transfer of `b`, the wait of `k` polls, and IDLE, with every
other register kept. -/
def ByteCommandCompletes (i : Instr) (b : Byte) (rs : Bool) : Prop :=
  ∀ (s : State) (k : Nat),
    s.init_done = true → s.params.Legal → s.WriteReady → s.ReadyAfter 0 k →
    quietFor (s.params.byteBusy k - 1) s.host = true →
    ∃ t, exec i s = .next t ∧
      BusyUntil (s.params.byteBusy k - 1) t
        ({ (s.afterXfer b rs).afterWait k with seq := .idle }.ticks (s.params.byteBusy k - 1))

/-- Every byte command completes after INIT, with the byte and the RS value of R93 on the bus, in the busy time of
R247 (30_encoding.md R93; 44_command_api.md R170 to R176; 70_reset_and_hazards.md R247). The model's choices here are
the scripted and free answers of the LCD, cnt = 0 at the end and the host's moves: log entries 3, 4, 5 and 7. -/
def Obligations.ByteCommandsComplete : Prop :=
  (∀ arg1 b, ByteCommandCompletes (.wdata arg1 b) b true) ∧
  (∀ arg1 b, ByteCommandCompletes (.winstr arg1 b) b false) ∧
  (∀ row col, ByteCommandCompletes (.setcur row col) (cursorByte col row) false) ∧
  (∀ arg1 arg0, ByteCommandCompletes (.clear arg1 arg0) 0x01#8 false) ∧
  (∀ arg1 arg0, ByteCommandCompletes (.home arg1 arg0) 0x80#8 false) ∧
  (∀ arg1 on, ByteCommandCompletes (.display arg1 on) (displayByte on) false)

/-- A byte command whose wait times out has sent its byte, sets `err_timeout` and returns to IDLE with the lines
restored (44_command_api.md R170; 60_exceptions.md R204). The model's choices here are the scripted and free answers
of the LCD, cnt = 0 at the end and the host's moves: log entries 3, 4, 5 and 7. -/
def Obligations.ByteCommandsTimeOut : Prop :=
  ∀ (i : Instr) (b : Byte) (rs : Bool) (s : State),
    i.byteSent = some (b, rs) → s.init_done = true → s.params.Legal → s.WriteReady → s.TimesOut 0 →
    quietFor (s.params.byteBusy s.params.pollLimit - 1) s.host = true →
    ∃ t, exec i s = .next t ∧
      BusyUntil (s.params.byteBusy s.params.pollLimit - 1) t
        ({ (s.afterXfer b rs).afterTimeout with seq := .idle }.ticks (s.params.byteBusy s.params.pollLimit - 1))

/-- INIT completes from any state whose five waits end OK: `exec` answers `CFG`, and the rest of R248's busy time
runs the cold start and the four bytes, each with its wait, to IDLE with `init_done` = 1 (40_init_sequence.md R110 to
R121; 70_reset_and_hazards.md R248). The model's choices here are the scripted and free answers of the LCD, cnt = 0
at the end and the host's moves: log entries 3, 4, 5 and 7. -/
def Obligations.InitCompletes : Prop :=
  ∀ (arg1 arg0 : Byte) (s : State) (k : Nat) (ks : List Nat),
    s.params.Legal → ks.length = 4 → s.ReadyInTurn 0 (k :: ks) →
    quietFor (s.params.initBusy (k + ks.sum) - 1) s.host = true →
    ∃ t, exec (.init arg1 arg0) s = .next t ∧
      BusyUntil (s.params.initBusy (k + ks.sum) - 1) t
        ({ (s.afterColdStart.afterWait k).afterInitBytes (initBytes.zip ks) with
            init_done := true, seq := .idle }.ticks (s.params.initBusy (k + ks.sum) - 1))

/-- INIT aborts at the wait after the mode switch when that wait times out: nothing more is sent, `init_done` stays 0
and `err_timeout` is 1 (40_init_sequence.md R124). The model's choices here are the scripted and free answers of the
LCD, cnt = 0 at the end and the host's moves: log entries 3, 4, 5 and 7. -/
def Obligations.InitAbortsAtTheModeSwitch : Prop :=
  ∀ (arg1 arg0 : Byte) (s : State),
    s.params.Legal → s.TimesOut 0 →
    quietFor (s.params.coldStartCycles + s.params.waitCycles s.params.pollLimit) s.host = true →
    ∃ t, exec (.init arg1 arg0) s = .next t ∧
      BusyUntil (s.params.coldStartCycles + s.params.waitCycles s.params.pollLimit) t
        ({ s.afterColdStart.afterTimeout with seq := .idle }.ticks
          (s.params.coldStartCycles + s.params.waitCycles s.params.pollLimit))

/-- INIT aborts at the wait of any of its four bytes when that wait times out: the bytes before it and that byte are
sent and nothing more, `init_done` stays 0 and `err_timeout` is 1 (40_init_sequence.md R124). The model's choices
here are the scripted and free answers of the LCD, cnt = 0 at the end and the host's moves: log entries 3, 4, 5 and
7. -/
def Obligations.InitAbortsAtAByte : Prop :=
  ∀ (arg1 arg0 : Byte) (s : State) (k : Nat) (ks : List Nat) (b : Byte),
    s.params.Legal → initBytes[ks.length]? = some b →
    s.ReadyInTurn 0 (k :: ks) → s.TimesOut (k + ks.sum) →
    let n := s.params.coldStartCycles + s.params.waitCycles k + s.params.bytesCycles (ks ++ [s.params.pollLimit])
    quietFor n s.host = true →
    ∃ t, exec (.init arg1 arg0) s = .next t ∧
      BusyUntil n t
        ({ (((s.afterColdStart.afterWait k).afterInitBytes (initBytes.zip ks)).afterXfer b false).afterTimeout with
            seq := .idle }.ticks n)

/-- A command whose wait never samples 0, in a block with no poll limit, never ends: it is out of IDLE, and does not
accept a command, after any number of edges (43_busy_wait.md R160; 60_exceptions.md R205). The model's choices here
are the answers of the LCD and the host's moves: log entries 3, 4 and 5. -/
def Obligations.UnreadyLcdHangsTheBlock : Prop :=
  ∀ (i : Instr) (s : State),
    (i.byteSent ≠ none ∧ s.init_done = true ∧ s.WriteReady) ∨ i.op = 0b000#3 →
    s.params.Legal → s.params.pollLimit = 0 → (∀ j, s.busyAt j = true) → (∀ n, quietFor n s.host = true) →
    ∃ t, exec i s = .next t ∧ ∀ n, ∃ u, runFor n t = .next u ∧ u.seq ≠ .idle ∧ u.cmdReady = false

/-- With the data lines pulled up and nothing driving them, every sample reads busy, whichever bit carries the flag
(20_memory.md R77). The model's choices here are the field lcdPresent: log entry 5. -/
def Obligations.DisconnectedLcdReadsBusy : Prop :=
  ∀ s : State, s.lcdPresent = false → s.d_oe = false → s.d_pu = true →
    s.lcdIn = 0xF#4 ∧ (∀ j, s.busyAt j = true) ∧ s.takeSample.busy_r = true

/-- If the LCD answers ready at some sample, as a working one does, a byte command ends in a block with no poll limit
(20_memory.md R77, 60_exceptions.md R205). The model's choices here are the answers of the LCD and the host's moves:
log entries 3, 4 and 5. -/
def Obligations.ReadyLcdLetsCommandsEnd : Prop :=
  ∀ (i : Instr) (s : State),
    i.byteSent ≠ none → s.init_done = true → s.WriteReady → s.params.Legal → s.params.pollLimit = 0 →
    (∃ j, s.busyAt j = false) → (∀ n, quietFor n s.host = true) →
    ∃ t n u, exec i s = .next t ∧ runFor n t = .next u ∧ u.seq = .idle ∧ u.busy_r = false ∧
      u.err_timeout = s.err_timeout

/-! ## Rules over all edges -/

/-- The reset state keeps the discipline of the bus lines. -/
def Obligations.LineInvariantAtReset : Prop := State.reset.LineInv

/-- Every edge keeps the discipline of the bus lines, from any state that has it: the direction is the one the output
enables say, the two sides never drive the data lines at once, E = 0, RW = 0 and the direction is not IN outside a
command, and the rest of a running command finds at every step the lines it requires (10_state.md R27, R30, R41;
41_byte_transfer.md R134; 70_reset_and_hazards.md R240, R241). The model's choices here are the rest of the step list
is held in seq: log entry 9. -/
def Obligations.EveryEdgeKeepsTheLineInvariant : Prop :=
  ∀ s t : State, s.LineInv → step s = .next t → t.LineInv

/-- The reset state has its counters in range. The model's choices here are a block with no limit holds a polls of 0:
log entry 8. -/
def Obligations.CounterInvariantAtReset : Prop := State.reset.CounterInv

/-- Every edge keeps the counters in their widths, in a block with legal parameters: neither wraps (44_command_api.md
R178; 00_scope.md R7). The model's choices here are the counters are numbers and not words: log entries 7 and 8. -/
def Obligations.EveryEdgeKeepsTheCounterInvariant : Prop :=
  ∀ s t : State, s.params.Legal → s.CounterInv → step s = .next t → t.CounterInv

/-- In the reset state no wait has timed out. -/
def Obligations.TimeoutInvariantAtReset : Prop := State.reset.TimeoutInv

/-- Every edge keeps it that the step `.dirOut .timeout` comes only right after the step `RW=0` of a wait whose polls
reached the limit and whose last sample was 1 (43_busy_wait.md R156, R157, R159; 60_exceptions.md R204). The model's
choices here are the rest of the step list is held in seq: log entry 9. -/
def Obligations.EveryEdgeKeepsTheTimeoutInvariant : Prop :=
  ∀ s t : State, s.TimeoutInv → step s = .next t → t.TimeoutInv

/-- E rises only for a write with the data lines driven, or for a status read with RS = 0 and the data lines released:
the block never reads the data register (20_memory.md R61). -/
def Obligations.EnableRisesOnlyForAWriteOrAStatusRead : Prop :=
  ∀ s t : State, s.LineInv → step s = .next t → s.e_o = false → t.e_o = true →
    (t.rw_o = false ∧ t.d_oe = true) ∨ (t.rw_o = true ∧ t.rs_o = false ∧ t.d_oe = false)

/-- While E is high, and at the edge at which it falls, RS, RW and the data lines do not change, but for a reset
(42_enable_pulse.md R141). -/
def Obligations.LinesAreStableWhileEnableIsHigh : Prop :=
  ∀ s t : State, s.LineInv → s.rst = false → step s = .next t → s.e_o = true →
    t.rs_o = s.rs_o ∧ t.rw_o = s.rw_o ∧ t.d_o = s.d_o ∧ t.d_oe = s.d_oe ∧ t.d_pu = s.d_pu ∧ t.dir = s.dir

/-- The LCD receives exactly one pair `(RS, D)` at each fall of E with RW = 0, and nothing at any other edge
(20_memory.md R66, R72). The model's choices here are the list of latch events: log entry 11. -/
def Obligations.LatchEventsAreTheFallsOfEnable : Prop :=
  ∀ s t : State, s.LineInv → s.rst = false → step s = .next t →
    t.latched =
      if s.e_o = true ∧ t.e_o = false ∧ s.rw_o = false then s.latched ++ [(s.rs_o, s.d_o)] else s.latched

/-- The legal values of status: DIR is never 0b11, it is not IN while IDLE = 1, and it is OUT while IDLE = 1 and
INIT_DONE = 1. In IDLE, RW = 0 and E = 0 (10_state.md R41; 20_memory.md R82). -/
def Obligations.StatusIsLegal : Prop :=
  ∀ s : State, s.LineInv →
    s.status.extractLsb' 2 2 ≠ 0b11#2 ∧
    (s.status.getLsbD 0 = true →
      s.status.extractLsb' 2 2 ≠ 0b10#2 ∧ s.rw_o = false ∧ s.e_o = false ∧
      (s.status.getLsbD 1 = true → s.status.extractLsb' 2 2 = 0b01#2))

/-- Each edge but a reset adds at most one bus event, and the lines, the direction and the sample change exactly as
the event says (20_memory.md R66, R67; 00_scope.md R11). The model's choices here are the trace is held in State: log
entry 10. -/
def Obligations.TraceAccountsForTheLines : Prop :=
  ∀ s t : State, s.rst = false → step s = .next t →
    ∃ evs, evs.length ≤ 1 ∧ t.trace = s.trace ++ evs ∧ t.busView = evs.foldl BusView.after s.busView

/-- No edge but a reset clears a fault flag, and a reset clears all three (60_exceptions.md R206). -/
def Obligations.FaultFlagsAreSticky : Prop :=
  ∀ s t : State, step s = .next t →
    (s.rst = false →
      (s.err_illegal = true → t.err_illegal = true) ∧ (s.err_noinit = true → t.err_noinit = true) ∧
      (s.err_timeout = true → t.err_timeout = true)) ∧
    (s.rst = true → t.err_illegal = false ∧ t.err_noinit = false ∧ t.err_timeout = false)

/-- Each fault flag is set exactly by its cause. ILLEGAL is set by the reserved opcode in DECODE, and NOINIT by any
other opcode but INIT's in DECODE with `init_done` = 0. TIMEOUT is set by the edge that enters the last step of a
wait that timed out, and with `TimeoutInv` that is one in a block with a limit, after that many polls, the last of
which sampled 1 (10_state.md R38; 60_exceptions.md R202 to R204, R207). The model's choices here are the rest of the
step list is held in seq: log entry 9. -/
def Obligations.FaultFlagsAreSetOnlyByTheirCause : Prop :=
  ∀ s t : State, s.rst = false → step s = .next t →
    t.err_illegal = (s.err_illegal || (s.seq == .decode && opField s.cmd_r == 0b111#3)) ∧
    t.err_noinit = (s.err_noinit ||
      (s.seq == .decode && opField s.cmd_r != 0b111#3 && opField s.cmd_r != 0b000#3 && !s.init_done)) ∧
    (t.err_timeout = true ↔ s.err_timeout = true ∨ ∃ rest, t.seq = .run (.dirOut .timeout) rest) ∧
    (s.TimeoutInv → ∀ rest, t.seq = .run (.dirOut .timeout) rest →
      t.params.pollLimit ≠ 0 ∧ t.polls = t.params.pollLimit ∧ t.busy_r = true)

/-- `init_done` changes only at `CFG`, which clears it, and at the end of INIT, which sets it and returns to IDLE:
the edge that moves on to the entry `.ready` of the step list. That entry is in the list of no command but INIT, and
no edge inside a list puts it there (10_state.md R26, 40_init_sequence.md R121). The model's choices here are the
rest of the step list is held in seq: log entry 9. -/
def Obligations.InitDoneChangesOnlyInInit : Prop :=
  ∀ s t : State, s.rst = false → step s = .next t →
    (s.init_done = true → t.init_done = false → ∃ rest, t.seq = .run .cfg rest) ∧
    (s.init_done = false → t.init_done = true →
      t.seq = .idle ∧ ∃ current rest, s.seq = .run current rest ∧ s.atReady rest = true) ∧
    (∀ current rest, t.seq = .run current rest → .ready ∈ rest →
      (s.seq = .decode ∧ opField s.cmd_r = 0b000#3) ∨
      ∃ current' rest', s.seq = .run current' rest' ∧ .ready ∈ rest')

/-- `cmd_r` is constant until the command ends (10_state.md R25). -/
def Obligations.CommandWordIsConstantWhileBusy : Prop :=
  ∀ s t : State, s.rst = false → s.seq ≠ .idle → step s = .next t → t.cmd_r = s.cmd_r

/-- The elaboration parameters are fixed: no edge changes them, a reset included (10_state.md R40). The model's
choices here are that the parameters are a field of State: log entry 1. -/
def Obligations.ParametersAreFixed : Prop :=
  ∀ s t : State, step s = .next t → t.params = s.params

/-- Once `CFG` has driven RS, RW and E, only a reset releases them (10_state.md R33). -/
def Obligations.OnlyResetReleasesTheControlLines : Prop :=
  ∀ s t : State, s.rst = false → step s = .next t → s.ctl_oe = true → t.ctl_oe = true

/-- The status word, bit by bit (10_state.md R40). -/
def Obligations.StatusWordFields : Prop :=
  ∀ s : State,
    s.status.getLsbD 0 = (s.seq == .idle) ∧ s.status.getLsbD 1 = s.init_done ∧
    s.status.extractLsb' 2 2 = (match s.dir with
      | .unconf => 0b00#2
      | .out => 0b01#2
      | .inp => 0b10#2) ∧
    s.status.getLsbD 4 = s.err_illegal ∧ s.status.getLsbD 5 = s.err_noinit ∧
    s.status.getLsbD 6 = s.err_timeout ∧ s.status.getLsbD 7 = s.busy_r ∧
    (s.rst = false → s.cmdReady = s.status.getLsbD 0)

/-! ## The host's sequences and the assembler -/

/-- `decimal(v)` for every signed 16-bit v: a minus sign exactly for a negative v, then the base-10 digits of `|v|` with
no leading zero but in "0": 1 to 5 digits, so 1 to 6 characters (45_host_sequences.md R192). -/
def Obligations.DecimalTextIsCanonical : Prop :=
  ∀ v : BitVec 16, ∃ ds : List Nat,
    decimal v = (if v.toInt < 0 then [0x2D#8] else []) ++ ds.map (fun d => BitVec.ofNat 8 (0x30 + d)) ∧
    (∀ d ∈ ds, d ≤ 9) ∧ ds.foldl (fun n d => 10 * n + d) 0 = v.toInt.natAbs ∧
    (ds.head? = some 0 → ds = [0]) ∧ 1 ≤ ds.length ∧ ds.length ≤ 5

/-- WNUM issues one WDATA for each character of `decimal(v)`, in order: none of them is the terminator
(45_host_sequences.md R193). -/
def Obligations.WnumIssuesEveryDigit : Prop :=
  ∀ v : BitVec 16, wnum v = (decimal v).map (.wdata 0)

/-- WSTR issues one WDATA for each character before the terminator, in order, and nothing for the terminator or what
follows it; the empty text issues no command (45_host_sequences.md R190, R191). The model's choices here are a host
that issues commands is a list of offers: log entry 3. -/
def Obligations.WstrStopsAtTheTerminator : Prop :=
  (∀ text rest : List Byte, (∀ c ∈ text, c ≠ 0x00#8) →
    wstr text = text.map (.wdata 0) ∧ wstr (text ++ 0x00#8 :: rest) = text.map (.wdata 0)) ∧
  hostOffers (wstr []) = []

/-- A host that issues a text through the handshake, to an initialised block in IDLE whose LCD answers ready at the
first poll of each, has every character latched as two nibbles with RS = 1, in order, and the block ends in IDLE
after `byteBusy 1 + 1` edges for each character (45_host_sequences.md R190, R195; 44_command_api.md R171). The
model's choices here are the host, the answers of the LCD and the list of latch events: log entries 3, 4 and 11. -/
def Obligations.IssuedTextReachesTheLcd : Prop :=
  ∀ (s : State) (text : List Byte),
    s.seq = .idle → s.init_done = true → s.WriteReady → s.params.Legal → (∀ c ∈ text, c ≠ 0x00#8) →
    s.host = hostOffers (wstr text) → (∀ j, j < text.length → s.busyAt j = false) →
    ∃ u, runFor (text.length * (s.params.byteBusy 1 + 1)) s = .next u ∧
      u.seq = .idle ∧ u.host = [] ∧ u.init_done = true ∧ u.err_timeout = s.err_timeout ∧
      u.latched = s.latched ++ text.flatMap (fun c => [(true, highNibble c), (true, lowNibble c)])

/-- The word of each mnemonic, and what the assembler refuses: an operand over 255, and DISPLAY with an operand other
than 0 or 1 (30_encoding.md R101). -/
def Obligations.AssemblerWritesTheWords : Prop :=
  assemble .init = some [0x00000#19] ∧ assemble .clear = some [0x40000#19] ∧ assemble .home = some [0x50000#19] ∧
  assemble (.display 0) = some [0x60000#19] ∧ assemble (.display 1) = some [0x60001#19] ∧
  (∀ n, 1 < n → assemble (.display n) = none) ∧
  (∀ n, n ≤ 255 →
    assemble (.wdata n) = some [BitVec.ofNat 19 (0x10000 + n)] ∧
    assemble (.winstr n) = some [BitVec.ofNat 19 (0x20000 + n)]) ∧
  (∀ n, 255 < n → assemble (.wdata n) = none ∧ assemble (.winstr n) = none) ∧
  (∀ col row, col ≤ 255 → row ≤ 255 →
    assemble (.setcur col row) = some [BitVec.ofNat 19 (0x30000 + row * 0x100 + col)]) ∧
  (∀ col row, 255 < col ∨ 255 < row → assemble (.setcur col row) = none) ∧
  (∀ n, n < 0x80000 → assemble (.word n) = some [BitVec.ofNat 19 n]) ∧
  (∀ n, 0x80000 ≤ n → assemble (.word n) = none)

/-- Every word a mnemonic writes decodes to a well-formed command: no ignored field is nonzero and no word is the
reserved opcode's (30_encoding.md R96, R101, R102). -/
def Obligations.MnemonicsWriteWellFormedCommands : Prop :=
  ∀ (line : AsmLine) (ws : List CmdWord), assemble line = some ws → (∀ n, line ≠ .word n) →
    ∀ w ∈ ws, (decode w).wellFormed = true
end

