-- ==== Sys2Proof/Laws/Decode.lean ====
section
/-! SUPPORT. The fields of an encoded command. -/

namespace Sys2Proof

@[simp] theorem opField_encode (i : Instr) : opField (encode i) = i.op := by
  simp only [opField, encode]
  apply BitVec.eq_of_getLsbD_eq
  intro k hk
  simp only [BitVec.getLsbD_extractLsb', BitVec.getLsbD_append, hk, decide_true, Bool.true_and]
  rw [if_neg (by omega), if_neg (by omega)]
  congr 1
  omega

@[simp] theorem arg1Field_encode (i : Instr) : arg1Field (encode i) = i.arg1 := by
  simp only [arg1Field, encode]
  apply BitVec.eq_of_getLsbD_eq
  intro k hk
  simp only [BitVec.getLsbD_extractLsb', BitVec.getLsbD_append, hk, decide_true, Bool.true_and]
  rw [if_neg (by omega), if_pos (by omega)]
  congr 1
  omega

@[simp] theorem arg0Field_encode (i : Instr) : arg0Field (encode i) = i.arg0 := by
  simp only [arg0Field, encode]
  apply BitVec.eq_of_getLsbD_eq
  intro k hk
  simp only [BitVec.getLsbD_extractLsb', BitVec.getLsbD_append, hk, decide_true, Bool.true_and]
  rw [if_pos (by omega)]
  congr 1
  omega

/-- A word is its three fields. -/
theorem cmdWord_fields (w : CmdWord) : opField w ++ arg1Field w ++ arg0Field w = w := by
  apply BitVec.eq_of_getLsbD_eq
  intro k hk
  simp only [opField, arg1Field, arg0Field, BitVec.getLsbD_append, BitVec.getLsbD_extractLsb']
  split
  · simp only [*, decide_true, Bool.true_and]; congr 1; omega
  · split
    · simp only [*, decide_true, Bool.true_and]; congr 1; omega
    · have : k - 8 - 8 < 3 := by omega
      simp only [this, decide_true, Bool.true_and]; congr 1; omega

end Sys2Proof
end

