-- ==== Sys2Proof/Laws/State.lean ====
section
/-! SUPPORT. One lemma per field per small update of the state, so that no later proof unfolds a record update. -/

namespace Sys2Proof.Machine

variable (s : State)

/-! ## `emit` -/

@[simp] theorem State.emit_params (evs : List Event) : (s.emit evs).params = s.params := rfl
@[simp] theorem State.emit_seq (evs : List Event) : (s.emit evs).seq = s.seq := rfl
@[simp] theorem State.emit_cmd_r (evs : List Event) : (s.emit evs).cmd_r = s.cmd_r := rfl
@[simp] theorem State.emit_init_done (evs : List Event) : (s.emit evs).init_done = s.init_done := rfl
@[simp] theorem State.emit_dir (evs : List Event) : (s.emit evs).dir = s.dir := rfl
@[simp] theorem State.emit_ctl_oe (evs : List Event) : (s.emit evs).ctl_oe = s.ctl_oe := rfl
@[simp] theorem State.emit_rs_o (evs : List Event) : (s.emit evs).rs_o = s.rs_o := rfl
@[simp] theorem State.emit_rw_o (evs : List Event) : (s.emit evs).rw_o = s.rw_o := rfl
@[simp] theorem State.emit_e_o (evs : List Event) : (s.emit evs).e_o = s.e_o := rfl
@[simp] theorem State.emit_d_o (evs : List Event) : (s.emit evs).d_o = s.d_o := rfl
@[simp] theorem State.emit_d_oe (evs : List Event) : (s.emit evs).d_oe = s.d_oe := rfl
@[simp] theorem State.emit_d_pu (evs : List Event) : (s.emit evs).d_pu = s.d_pu := rfl
@[simp] theorem State.emit_cnt (evs : List Event) : (s.emit evs).cnt = s.cnt := rfl
@[simp] theorem State.emit_polls (evs : List Event) : (s.emit evs).polls = s.polls := rfl
@[simp] theorem State.emit_busy_r (evs : List Event) : (s.emit evs).busy_r = s.busy_r := rfl
@[simp] theorem State.emit_tx_byte (evs : List Event) : (s.emit evs).tx_byte = s.tx_byte := rfl
@[simp] theorem State.emit_err_illegal (evs : List Event) : (s.emit evs).err_illegal = s.err_illegal := rfl
@[simp] theorem State.emit_err_noinit (evs : List Event) : (s.emit evs).err_noinit = s.err_noinit := rfl
@[simp] theorem State.emit_err_timeout (evs : List Event) : (s.emit evs).err_timeout = s.err_timeout := rfl
@[simp] theorem State.emit_host (evs : List Event) : (s.emit evs).host = s.host := rfl
@[simp] theorem State.emit_lcdPresent (evs : List Event) : (s.emit evs).lcdPresent = s.lcdPresent := rfl
@[simp] theorem State.emit_lcdAnswers (evs : List Event) : (s.emit evs).lcdAnswers = s.lcdAnswers := rfl
@[simp] theorem State.emit_draws (evs : List Event) : (s.emit evs).draws = s.draws := rfl
@[simp] theorem State.emit_trace (evs : List Event) : (s.emit evs).trace = s.trace ++ evs := rfl
@[simp] theorem State.emit_latched (evs : List Event) : (s.emit evs).latched = s.latched := rfl

/-! ## `finish` -/

@[simp] theorem State.finish_params : (s.finish).params = s.params := rfl
@[simp] theorem State.finish_seq : (s.finish).seq = .idle := rfl
@[simp] theorem State.finish_cmd_r : (s.finish).cmd_r = s.cmd_r := rfl
@[simp] theorem State.finish_init_done : (s.finish).init_done = s.init_done := rfl
@[simp] theorem State.finish_dir : (s.finish).dir = s.dir := rfl
@[simp] theorem State.finish_ctl_oe : (s.finish).ctl_oe = s.ctl_oe := rfl
@[simp] theorem State.finish_rs_o : (s.finish).rs_o = s.rs_o := rfl
@[simp] theorem State.finish_rw_o : (s.finish).rw_o = s.rw_o := rfl
@[simp] theorem State.finish_e_o : (s.finish).e_o = s.e_o := rfl
@[simp] theorem State.finish_d_o : (s.finish).d_o = s.d_o := rfl
@[simp] theorem State.finish_d_oe : (s.finish).d_oe = s.d_oe := rfl
@[simp] theorem State.finish_d_pu : (s.finish).d_pu = s.d_pu := rfl
@[simp] theorem State.finish_cnt : (s.finish).cnt = s.cnt := rfl
@[simp] theorem State.finish_polls : (s.finish).polls = s.polls := rfl
@[simp] theorem State.finish_busy_r : (s.finish).busy_r = s.busy_r := rfl
@[simp] theorem State.finish_tx_byte : (s.finish).tx_byte = s.tx_byte := rfl
@[simp] theorem State.finish_err_illegal : (s.finish).err_illegal = s.err_illegal := rfl
@[simp] theorem State.finish_err_noinit : (s.finish).err_noinit = s.err_noinit := rfl
@[simp] theorem State.finish_err_timeout : (s.finish).err_timeout = s.err_timeout := rfl
@[simp] theorem State.finish_host : (s.finish).host = s.host := rfl
@[simp] theorem State.finish_lcdPresent : (s.finish).lcdPresent = s.lcdPresent := rfl
@[simp] theorem State.finish_lcdAnswers : (s.finish).lcdAnswers = s.lcdAnswers := rfl
@[simp] theorem State.finish_draws : (s.finish).draws = s.draws := rfl
@[simp] theorem State.finish_trace : (s.finish).trace = s.trace := rfl
@[simp] theorem State.finish_latched : (s.finish).latched = s.latched := rfl

/-! ## `hostTick` -/

@[simp] theorem State.hostTick_params : (s.hostTick).params = s.params := rfl
@[simp] theorem State.hostTick_seq : (s.hostTick).seq = s.seq := rfl
@[simp] theorem State.hostTick_cmd_r : (s.hostTick).cmd_r = s.cmd_r := rfl
@[simp] theorem State.hostTick_init_done : (s.hostTick).init_done = s.init_done := rfl
@[simp] theorem State.hostTick_dir : (s.hostTick).dir = s.dir := rfl
@[simp] theorem State.hostTick_ctl_oe : (s.hostTick).ctl_oe = s.ctl_oe := rfl
@[simp] theorem State.hostTick_rs_o : (s.hostTick).rs_o = s.rs_o := rfl
@[simp] theorem State.hostTick_rw_o : (s.hostTick).rw_o = s.rw_o := rfl
@[simp] theorem State.hostTick_e_o : (s.hostTick).e_o = s.e_o := rfl
@[simp] theorem State.hostTick_d_o : (s.hostTick).d_o = s.d_o := rfl
@[simp] theorem State.hostTick_d_oe : (s.hostTick).d_oe = s.d_oe := rfl
@[simp] theorem State.hostTick_d_pu : (s.hostTick).d_pu = s.d_pu := rfl
@[simp] theorem State.hostTick_cnt : (s.hostTick).cnt = s.cnt := rfl
@[simp] theorem State.hostTick_polls : (s.hostTick).polls = s.polls := rfl
@[simp] theorem State.hostTick_busy_r : (s.hostTick).busy_r = s.busy_r := rfl
@[simp] theorem State.hostTick_tx_byte : (s.hostTick).tx_byte = s.tx_byte := rfl
@[simp] theorem State.hostTick_err_illegal : (s.hostTick).err_illegal = s.err_illegal := rfl
@[simp] theorem State.hostTick_err_noinit : (s.hostTick).err_noinit = s.err_noinit := rfl
@[simp] theorem State.hostTick_err_timeout : (s.hostTick).err_timeout = s.err_timeout := rfl
@[simp] theorem State.hostTick_host : (s.hostTick).host = hostAfterEdge s.host := rfl
@[simp] theorem State.hostTick_lcdPresent : (s.hostTick).lcdPresent = s.lcdPresent := rfl
@[simp] theorem State.hostTick_lcdAnswers : (s.hostTick).lcdAnswers = s.lcdAnswers := rfl
@[simp] theorem State.hostTick_draws : (s.hostTick).draws = s.draws := rfl
@[simp] theorem State.hostTick_trace : (s.hostTick).trace = s.trace := rfl
@[simp] theorem State.hostTick_latched : (s.hostTick).latched = s.latched := rfl

/-! ## `enter`: everything but the position is what the step writes -/

@[simp] theorem State.enter_params (x : Step) (rest : List Item) : (s.enter x rest).params = (s.apply x).params := rfl
@[simp] theorem State.enter_seq (x : Step) (rest : List Item) : (s.enter x rest).seq = .run x rest := rfl
@[simp] theorem State.enter_cmd_r (x : Step) (rest : List Item) : (s.enter x rest).cmd_r = (s.apply x).cmd_r := rfl
@[simp] theorem State.enter_init_done (x : Step) (rest : List Item) : (s.enter x rest).init_done = (s.apply x).init_done := rfl
@[simp] theorem State.enter_dir (x : Step) (rest : List Item) : (s.enter x rest).dir = (s.apply x).dir := rfl
@[simp] theorem State.enter_ctl_oe (x : Step) (rest : List Item) : (s.enter x rest).ctl_oe = (s.apply x).ctl_oe := rfl
@[simp] theorem State.enter_rs_o (x : Step) (rest : List Item) : (s.enter x rest).rs_o = (s.apply x).rs_o := rfl
@[simp] theorem State.enter_rw_o (x : Step) (rest : List Item) : (s.enter x rest).rw_o = (s.apply x).rw_o := rfl
@[simp] theorem State.enter_e_o (x : Step) (rest : List Item) : (s.enter x rest).e_o = (s.apply x).e_o := rfl
@[simp] theorem State.enter_d_o (x : Step) (rest : List Item) : (s.enter x rest).d_o = (s.apply x).d_o := rfl
@[simp] theorem State.enter_d_oe (x : Step) (rest : List Item) : (s.enter x rest).d_oe = (s.apply x).d_oe := rfl
@[simp] theorem State.enter_d_pu (x : Step) (rest : List Item) : (s.enter x rest).d_pu = (s.apply x).d_pu := rfl
@[simp] theorem State.enter_cnt (x : Step) (rest : List Item) : (s.enter x rest).cnt = (s.apply x).cnt := rfl
@[simp] theorem State.enter_polls (x : Step) (rest : List Item) : (s.enter x rest).polls = (s.apply x).polls := rfl
@[simp] theorem State.enter_busy_r (x : Step) (rest : List Item) : (s.enter x rest).busy_r = (s.apply x).busy_r := rfl
@[simp] theorem State.enter_tx_byte (x : Step) (rest : List Item) : (s.enter x rest).tx_byte = (s.apply x).tx_byte := rfl
@[simp] theorem State.enter_err_illegal (x : Step) (rest : List Item) : (s.enter x rest).err_illegal = (s.apply x).err_illegal := rfl
@[simp] theorem State.enter_err_noinit (x : Step) (rest : List Item) : (s.enter x rest).err_noinit = (s.apply x).err_noinit := rfl
@[simp] theorem State.enter_err_timeout (x : Step) (rest : List Item) : (s.enter x rest).err_timeout = (s.apply x).err_timeout := rfl
@[simp] theorem State.enter_host (x : Step) (rest : List Item) : (s.enter x rest).host = (s.apply x).host := rfl
@[simp] theorem State.enter_lcdPresent (x : Step) (rest : List Item) : (s.enter x rest).lcdPresent = (s.apply x).lcdPresent := rfl
@[simp] theorem State.enter_lcdAnswers (x : Step) (rest : List Item) : (s.enter x rest).lcdAnswers = (s.apply x).lcdAnswers := rfl
@[simp] theorem State.enter_draws (x : Step) (rest : List Item) : (s.enter x rest).draws = (s.apply x).draws := rfl
@[simp] theorem State.enter_trace (x : Step) (rest : List Item) : (s.enter x rest).trace = (s.apply x).trace := rfl
@[simp] theorem State.enter_latched (x : Step) (rest : List Item) : (s.enter x rest).latched = (s.apply x).latched := rfl

/-! ## `setFault`: a flag is set and nothing else changes -/

@[simp] theorem State.setFault_params (f : FaultFlag) : (s.setFault f).params = s.params := by cases f <;> rfl
@[simp] theorem State.setFault_seq (f : FaultFlag) : (s.setFault f).seq = s.seq := by cases f <;> rfl
@[simp] theorem State.setFault_cmd_r (f : FaultFlag) : (s.setFault f).cmd_r = s.cmd_r := by cases f <;> rfl
@[simp] theorem State.setFault_init_done (f : FaultFlag) : (s.setFault f).init_done = s.init_done := by cases f <;> rfl
@[simp] theorem State.setFault_dir (f : FaultFlag) : (s.setFault f).dir = s.dir := by cases f <;> rfl
@[simp] theorem State.setFault_ctl_oe (f : FaultFlag) : (s.setFault f).ctl_oe = s.ctl_oe := by cases f <;> rfl
@[simp] theorem State.setFault_rs_o (f : FaultFlag) : (s.setFault f).rs_o = s.rs_o := by cases f <;> rfl
@[simp] theorem State.setFault_rw_o (f : FaultFlag) : (s.setFault f).rw_o = s.rw_o := by cases f <;> rfl
@[simp] theorem State.setFault_e_o (f : FaultFlag) : (s.setFault f).e_o = s.e_o := by cases f <;> rfl
@[simp] theorem State.setFault_d_o (f : FaultFlag) : (s.setFault f).d_o = s.d_o := by cases f <;> rfl
@[simp] theorem State.setFault_d_oe (f : FaultFlag) : (s.setFault f).d_oe = s.d_oe := by cases f <;> rfl
@[simp] theorem State.setFault_d_pu (f : FaultFlag) : (s.setFault f).d_pu = s.d_pu := by cases f <;> rfl
@[simp] theorem State.setFault_cnt (f : FaultFlag) : (s.setFault f).cnt = s.cnt := by cases f <;> rfl
@[simp] theorem State.setFault_polls (f : FaultFlag) : (s.setFault f).polls = s.polls := by cases f <;> rfl
@[simp] theorem State.setFault_busy_r (f : FaultFlag) : (s.setFault f).busy_r = s.busy_r := by cases f <;> rfl
@[simp] theorem State.setFault_tx_byte (f : FaultFlag) : (s.setFault f).tx_byte = s.tx_byte := by cases f <;> rfl
@[simp] theorem State.setFault_err_illegal (f : FaultFlag) :
    (s.setFault f).err_illegal = (s.err_illegal || f == .illegal) := by cases f <;> simp [State.setFault]
@[simp] theorem State.setFault_err_noinit (f : FaultFlag) :
    (s.setFault f).err_noinit = (s.err_noinit || f == .noinit) := by cases f <;> simp [State.setFault]
@[simp] theorem State.setFault_err_timeout (f : FaultFlag) :
    (s.setFault f).err_timeout = (s.err_timeout || f == .timeout) := by cases f <;> simp [State.setFault]
@[simp] theorem State.setFault_host (f : FaultFlag) : (s.setFault f).host = s.host := by cases f <;> rfl
@[simp] theorem State.setFault_lcdPresent (f : FaultFlag) : (s.setFault f).lcdPresent = s.lcdPresent := by cases f <;> rfl
@[simp] theorem State.setFault_lcdAnswers (f : FaultFlag) : (s.setFault f).lcdAnswers = s.lcdAnswers := by cases f <;> rfl
@[simp] theorem State.setFault_draws (f : FaultFlag) : (s.setFault f).draws = s.draws := by cases f <;> rfl
@[simp] theorem State.setFault_trace (f : FaultFlag) : (s.setFault f).trace = s.trace := by cases f <;> rfl
@[simp] theorem State.setFault_latched (f : FaultFlag) : (s.setFault f).latched = s.latched := by cases f <;> rfl

end Sys2Proof.Machine
end

