-- ==== Sys2Proof/Laws/Sequencer.lean ====
section
/-! SUPPORT. How the sequencer runs along a step list, said once: `BusyUntil.steps` gives the effect and the cycles of any
list of steps, so that a proof about a procedure computes `throughAll` of its list and nothing else. -/

namespace Sys2Proof.Machine

/-! ## A state with another position and other host moves -/

/-- `s` at another position and with other host moves: neither is read by a step's writes. -/
def State.at (s : State) (q : Seq) (h : List HostMove) : State := { s with seq := q, host := h }

theorem State.at_self (s : State) : s.at s.seq s.host = s := rfl

@[simp] theorem State.at_at (s : State) (q q' : Seq) (h h' : List HostMove) :
    (s.at q h).at q' h' = s.at q' h' := rfl

theorem State.hostTick_eq_at (s : State) : s.hostTick = s.at s.seq (hostAfterEdge s.host) := rfl

theorem State.finish_eq_at (s : State) : s.finish = s.at .idle s.host := rfl

theorem State.enter_eq_at (s : State) (x : Step) (rest : List Item) :
    s.enter x rest = (s.apply x).at (.run x rest) (s.apply x).host := rfl

theorem State.fall_at (s : State) (q : Seq) (h : List HostMove) : (s.at q h).fall = s.fall.at q h := by
  unfold State.fall
  simp only [show (s.at q h).lcdRs = s.lcdRs from rfl, show (s.at q h).lcdRw = s.lcdRw from rfl,
    show (s.at q h).lcdE = s.lcdE from rfl]
  split <;> rfl

/-- A step's writes neither read nor write the position and the host's moves. -/
theorem State.apply_at (s : State) (q : Seq) (h : List HostMove) (x : Step) :
    (s.at q h).apply x = (s.apply x).at q h := by
  match x with
  | .cfg | .select _ _ | .drive .txHigh | .drive .txLow | .drive (.fixed _) | .dirIn | .readWrite _ | .selectInstr
  | .sample | .dirOut .ok | .dirOut .timeout | .enable true => rfl
  | .wait .settle | .wait .hold | .wait .pwr | .wait .por1 | .wait .por2 | .wait .por3 => rfl
  | .enable false => simp only [State.apply, State.fall_at]; rfl

theorem State.skips_at (s : State) (q : Seq) (h : List HostMove) (x : Step) :
    (s.at q h).skips x = s.skips x := by
  match x with
  | .wait .settle | .wait .hold | .wait .pwr | .wait .por1 | .wait .por2 | .wait .por3 => rfl
  | .cfg | .select _ _ | .drive _ | .dirIn | .readWrite _ | .selectInstr | .sample | .dirOut _ | .enable _ => rfl

theorem State.fall_host (s : State) : s.fall.host = s.host := by unfold State.fall; split <;> rfl

@[simp] theorem State.apply_host (s : State) (x : Step) : (s.apply x).host = s.host := by
  match x with
  | .cfg | .select _ _ | .drive _ | .dirIn | .readWrite _ | .selectInstr
  | .sample | .dirOut .ok | .dirOut .timeout | .enable true | .wait _ => rfl
  | .enable false => simp [State.apply, State.fall_host]

theorem State.enter_at (s : State) (q : Seq) (h : List HostMove) (x : Step) (rest : List Item) :
    (s.at q h).enter x rest = (s.enter x rest).at (.run x rest) h := by
  rw [State.enter_eq_at, State.enter_eq_at, State.apply_at]; rfl

theorem State.begin_at (s : State) (q : Seq) (h : List HostMove) (rest : List Item) (xs : List Step) :
    (s.at q h).begin rest xs = (s.begin rest xs).at (s.begin rest xs).seq h := by
  induction xs with
  | nil => rfl
  | cons x xs ih =>
    simp only [State.begin, State.skips_at]
    split
    · exact ih
    · rw [State.enter_at]; rfl

/-- Moving on along a step list does not read the position left behind or the host's moves. -/
theorem State.proceed_at (s : State) (q : Seq) (h : List HostMove) (items : List Item) :
    (s.at q h).proceed items = (s.proceed items).at (s.proceed items).seq h := by
  induction items with
  | nil => rfl
  | cons i rest ih =>
    match i with
    | .step x =>
      simp only [State.proceed, State.skips_at]
      split
      · exact ih
      · rw [State.enter_at]; rfl
    | .pollTest a =>
      simp only [State.proceed, show (s.at q h).pollResult = s.pollResult from rfl]
      split <;> exact State.begin_at ..
    | .ready => rfl

/-- Moving on does not write the host's moves. -/
@[simp] theorem State.proceed_host (s : State) (items : List Item) : (s.proceed items).host = s.host := by
  have h := congrArg State.host (State.proceed_at s s.seq s.host items)
  rwa [State.at_self] at h

theorem State.ticks_eq_at (n : Nat) (s : State) : s.ticks n = s.at s.seq (hostAfterEdges n s.host) := rfl

@[simp] theorem State.ticks_zero (s : State) : s.ticks 0 = s := rfl

theorem State.at_proceed_ticks (s : State) (q : Seq) (n : Nat) (items : List Item) :
    (s.at q (hostAfterEdges n s.host)).proceed items = (s.proceed items).ticks n := by
  rw [State.proceed_at, State.ticks_eq_at, State.proceed_host]

/-- A step that takes a cycle is entered. -/
theorem State.proceed_step (s : State) (x : Step) (rest : List Item) (h : s.skips x = false) :
    s.proceed (.step x :: rest) = s.enter x rest := by simp [State.proceed, h]

/-- `begin` is `proceed` on the steps' list, as soon as one of the steps takes a cycle. -/
theorem State.begin_eq_proceed (s : State) (rest : List Item) (xs : List Step) (h : ∃ x ∈ xs, s.skips x = false) :
    s.begin rest xs = s.proceed (steps xs ++ rest) := by
  induction xs with
  | nil => simp at h
  | cons x xs ih =>
    simp only [State.begin, steps, List.map_cons, List.cons_append, State.proceed]
    split
    · next hx =>
      refine ih ?_
      obtain ⟨y, hy, hs⟩ := h
      rcases List.mem_cons.mp hy with rfl | hy
      · simp [hs] at hx
      · exact ⟨y, hy, hs⟩
    · rfl

/-! ## Edges -/

theorem runFor_add {m n : Nat} {s t u : State} (h₁ : runFor m s = .next t) (h₂ : runFor n t = .next u) :
    runFor (m + n) s = .next u := by
  induction m generalizing s with
  | zero => cases h₁; simpa using h₂
  | succ m ih =>
    rw [Nat.succ_add]
    simp only [runFor] at h₁ ⊢
    split at h₁
    · exact ih h₁
    · cases h₁
    · cases h₁

theorem BusyUntil.refl (s : State) : BusyUntil 0 s s := ⟨rfl, fun _ h => absurd h (Nat.not_lt_zero _)⟩

theorem BusyUntil.trans {m n : Nat} {s t u : State} (h₁ : BusyUntil m s t) (h₂ : BusyUntil n t u) :
    BusyUntil (m + n) s u := by
  refine ⟨runFor_add h₁.1 h₂.1, fun k hk => ?_⟩
  by_cases h : k < m
  · exact h₁.2 k h
  · obtain ⟨v, hv, hi⟩ := h₂.2 (k - m) (by omega)
    refine ⟨v, ?_, hi⟩
    rw [show k = m + (k - m) from by omega]
    exact runFor_add h₁.1 hv

/-- One edge of a busy block. -/
theorem BusyUntil.one {s t : State} (h : step s = .next t) (hs : s.seq ≠ .idle) : BusyUntil 1 s t := by
  refine ⟨by simp [runFor, h], fun m hm => ⟨s, ?_, hs⟩⟩
  rw [show m = 0 from by omega]
  rfl

/-- An edge inside a step list. -/
theorem step_run (s : State) (x : Step) (rest : List Item) (hs : s.seq = .run x rest) (hr : s.rst = false) :
    step s = .next (s.hostTick.runEdge x rest) := by simp [step, hr, hs]

theorem rst_eq_false {n : Nat} {s : State} (h : quietFor (n + 1) s.host = true) : s.rst = false := by
  unfold State.rst State.hostMove
  cases hh : s.host with
  | nil => rfl
  | cons m ms => rw [hh] at h; simp [quietFor] at h; simpa using h.1

theorem quietFor_after {n : Nat} {h : List HostMove} (hq : quietFor (n + 1) h = true) :
    quietFor n (hostAfterEdge h) = true := by
  cases h with
  | nil => cases n <;> rfl
  | cons m ms => simp [quietFor] at hq; exact hq.2

theorem hostAfterEdges_add (m n : Nat) (h : List HostMove) :
    hostAfterEdges (m + n) h = hostAfterEdges n (hostAfterEdges m h) := by
  induction m generalizing h with
  | zero => simp [hostAfterEdges]
  | succ m ih => rw [Nat.succ_add]; exact ih _

theorem quietFor_split {m n : Nat} {h : List HostMove} (hq : quietFor (m + n) h = true) :
    quietFor m h = true ∧ quietFor n (hostAfterEdges m h) = true := by
  induction m generalizing h with
  | zero => simpa [quietFor, hostAfterEdges] using hq
  | succ m ih =>
    rw [Nat.succ_add] at hq
    obtain ⟨h₁, h₂⟩ := ih (quietFor_after hq)
    refine ⟨?_, h₂⟩
    cases h with
    | nil => rfl
    | cons a as => simp [quietFor] at hq ⊢; exact ⟨hq.1, h₁⟩

/-! ## Steps run to their end -/

/-- The cycles of a step (70_reset_and_hazards.md R245). -/
def State.cycles (s : State) : Step → Nat
  | .wait d => s.delay d
  | _ => 1

/-- The cycles of a list of steps: a wait's length depends on the parameters alone. -/
def State.cyclesAll (s : State) : List Step → Nat
  | [] => 0
  | x :: xs => s.cycles x + s.cyclesAll xs

/-- The state at the end of a step's cycles: a wait has none left. -/
def State.through (s : State) (x : Step) : State :=
  match x with
  | .wait d => if s.delay d = 0 then s else { s.apply x with cnt := 0 }
  | _ => s.apply x

/-- The state at the end of a list of steps. -/
def State.throughAll (s : State) (xs : List Step) : State := xs.foldl State.through s

@[simp] theorem State.throughAll_nil (s : State) : s.throughAll [] = s := rfl
@[simp] theorem State.throughAll_cons (s : State) (x : Step) (xs : List Step) :
    s.throughAll (x :: xs) = (s.through x).throughAll xs := rfl
theorem State.throughAll_append (s : State) (xs ys : List Step) :
    s.throughAll (xs ++ ys) = (s.throughAll xs).throughAll ys := List.foldl_append ..

theorem State.fall_params (s : State) : s.fall.params = s.params := by unfold State.fall; split <;> rfl

/-- No step writes the parameters. -/
@[simp] theorem State.apply_params (s : State) (x : Step) : (s.apply x).params = s.params := by
  match x with
  | .cfg | .select _ _ | .drive _ | .dirIn | .readWrite _ | .selectInstr
  | .sample | .dirOut .ok | .dirOut .timeout | .enable true | .wait _ => rfl
  | .enable false => simp [State.apply, State.fall_params]

theorem State.delay_congr {s t : State} (h : s.params = t.params) (d : Delay) : s.delay d = t.delay d := by
  cases d <;> simp [State.delay, h]

theorem State.cycles_congr {s t : State} (h : s.params = t.params) (x : Step) : s.cycles x = t.cycles x := by
  cases x <;> simp [State.cycles, State.delay_congr h]

theorem State.cyclesAll_congr {s t : State} (h : s.params = t.params) (xs : List Step) :
    s.cyclesAll xs = t.cyclesAll xs := by
  induction xs with
  | nil => rfl
  | cons x xs ih => simp [State.cyclesAll, State.cycles_congr h, ih]

theorem State.cyclesAll_append (s : State) (xs ys : List Step) :
    s.cyclesAll (xs ++ ys) = s.cyclesAll xs + s.cyclesAll ys := by
  induction xs with
  | nil => simp [State.cyclesAll]
  | cons x xs ih => simp [State.cyclesAll, ih]; omega

@[simp] theorem State.through_params (s : State) (x : Step) : (s.through x).params = s.params := by
  unfold State.through
  split
  · split
    · rfl
    · simp
  · simp

@[simp] theorem State.through_host (s : State) (x : Step) : (s.through x).host = s.host := by
  unfold State.through
  split
  · split
    · rfl
    · simp
  · simp

theorem State.throughAll_params (s : State) (xs : List Step) : (s.throughAll xs).params = s.params := by
  induction xs generalizing s with
  | nil => rfl
  | cons x xs ih => simp [ih]

theorem State.throughAll_host (s : State) (xs : List Step) : (s.throughAll xs).host = s.host := by
  induction xs generalizing s with
  | nil => rfl
  | cons x xs ih => simp [ih]

theorem State.through_at (s : State) (q : Seq) (h : List HostMove) (x : Step) :
    (s.at q h).through x = (s.through x).at q h := by
  unfold State.through
  split
  · rw [show (s.at q h).delay = s.delay from by funext d; cases d <;> rfl]
    split
    · rfl
    · rw [State.apply_at]; rfl
  · exact State.apply_at ..

theorem State.throughAll_at (s : State) (q : Seq) (h : List HostMove) (xs : List Step) :
    (s.at q h).throughAll xs = (s.throughAll xs).at q h := by
  induction xs generalizing s with
  | nil => rfl
  | cons x xs ih => simp [State.through_at, ih]

/-- The waiting edges: with `n + 1` cycles left, `n + 1` edges move on. -/
theorem BusyUntil.wait (n : Nat) (s : State) (d : Delay) (rest : List Item) (hs : s.seq = .run (.wait d) rest)
    (hc : s.cnt = n + 1) (hq : quietFor (n + 1) s.host = true) :
    BusyUntil (n + 1) s (({ s with cnt := 0 }.proceed rest).ticks (n + 1)) := by
  have hb : s.seq ≠ .idle := by simp [hs]
  induction n generalizing s with
  | zero =>
    refine .one ?_ hb
    simp only [step_run s _ _ hs (rst_eq_false hq), State.runEdge, State.hostTick_cnt, hc]
    exact congrArg Host.Outcome.next (State.at_proceed_ticks { s with cnt := 0 } s.seq 1 rest)
  | succ n ih =>
    have h₁ : step s = .next { s.hostTick with cnt := n + 1 } := by
      simp only [step_run s _ _ hs (rst_eq_false hq), State.runEdge, State.hostTick_cnt, hc,
        show 1 < n + 1 + 1 from by omega, if_true]
      rfl
    have h₂ := ih { s.hostTick with cnt := n + 1 } hs rfl (quietFor_after hq) hb
    have h := State.at_proceed_ticks { s with cnt := 0 } s.seq 1 rest
    rw [show n + 1 + 1 = 1 + (n + 1) from by omega]
    refine (BusyUntil.one h₁ hb).trans ?_
    convert h₂ using 1
    rw [Nat.add_comm]
    exact congrArg (State.ticks (n + 1)) h.symm

/-- One step: its cycles, then the next entry of the list. -/
theorem BusyUntil.step (s : State) (x : Step) (rest : List Item) (hq : quietFor (s.cycles x) s.host = true) :
    BusyUntil (s.cycles x) (s.proceed (.step x :: rest)) (((s.through x).proceed rest).ticks (s.cycles x)) := by
  by_cases hx : ∃ d, x = .wait d
  · obtain ⟨d, rfl⟩ := hx
    simp only [State.cycles] at hq ⊢
    cases hd : s.delay d with
    | zero => simpa [State.proceed, State.skips, hd, State.through] using BusyUntil.refl _
    | succ n =>
      rw [State.proceed_step _ _ _ (by simp [State.skips, hd])]
      have h := State.at_proceed_ticks (s.through (.wait d)) (.run (.wait d) rest) 0 rest
      simp only [State.through, hd, hostAfterEdges] at h ⊢
      have w := BusyUntil.wait n (s.enter (.wait d) rest) d rest rfl (by simp [State.apply, hd]) (by simpa [hd] using hq)
      convert w using 1
      exact congrArg (State.ticks (n + 1)) h.symm
  · have hc : s.cycles x = 1 := by cases x <;> simp_all [State.cycles]
    have hk : s.skips x = false := by cases x <;> simp_all [State.skips]
    have ht : s.through x = s.apply x := by cases x <;> simp_all [State.through]
    rw [hc] at hq ⊢
    rw [State.proceed_step _ _ _ hk, ht]
    have hr : (s.enter x rest).rst = false := rst_eq_false (n := 0) (by simpa using hq)
    have he : (s.enter x rest).hostTick.runEdge x rest = (s.enter x rest).hostTick.proceed rest := by
      cases x <;> simp_all [State.runEdge]
    refine .one ?_ (by simp)
    rw [step_run _ x rest rfl hr, he]
    exact congrArg Host.Outcome.next (State.at_proceed_ticks (s.apply x) (.run x rest) 1 rest)

theorem State.ticks_ticks (m n : Nat) (s : State) : (s.ticks m).ticks n = s.ticks (m + n) := by
  simp [State.ticks, hostAfterEdges_add]

theorem State.proceed_ticks (s : State) (n : Nat) (items : List Item) :
    (s.ticks n).proceed items = (s.proceed items).ticks n := State.at_proceed_ticks s s.seq n items

/-- A list of steps: their cycles, then the next entry of the list. -/
theorem BusyUntil.steps (xs : List Step) (s : State) (rest : List Item)
    (hq : quietFor (s.cyclesAll xs) s.host = true) :
    BusyUntil (s.cyclesAll xs) (s.proceed (Machine.steps xs ++ rest))
      (((s.throughAll xs).proceed rest).ticks (s.cyclesAll xs)) := by
  induction xs generalizing s with
  | nil => exact BusyUntil.refl _
  | cons x xs ih =>
    simp only [State.cyclesAll] at hq ⊢
    obtain ⟨h₁, h₂⟩ := quietFor_split hq
    have a := BusyUntil.step s x (Machine.steps xs ++ rest) h₁
    rw [← State.proceed_ticks] at a
    have hu : ((s.through x).ticks (s.cycles x)).cyclesAll xs = s.cyclesAll xs := by
      apply State.cyclesAll_congr; simp [State.ticks]
    have b := ih ((s.through x).ticks (s.cycles x)) (by rw [hu]; simpa [State.ticks, State.at] using h₂)
    rw [hu] at b
    have hat : ((s.through x).ticks (s.cycles x)).throughAll xs = ((s.through x).throughAll xs).at
        (s.through x).seq (hostAfterEdges (s.cycles x) ((s.through x).throughAll xs).host) := by
      rw [State.ticks_eq_at, State.throughAll_at, State.throughAll_host]
    rw [hat, State.at_proceed_ticks, State.ticks_ticks] at b
    exact a.trans b

end Sys2Proof.Machine
end

