-- ==== Sys2Proof/Laws/Edges.lean ====
section
/-! SUPPORT. Everything one edge can do, said once: `step_cases` is the inversion of `step` that a proof about every edge
cites instead of unfolding it. -/

namespace Sys2Proof.Machine

/-! ## Moving on along a step list -/

/-- What moving on can do: enter a step that takes a cycle, end the command, or end INIT. -/
inductive State.MovesTo (s : State) : State → Prop where
  | enter (x : Step) (rest : List Item) (h : s.skips x = false) : MovesTo s (s.enter x rest)
  | finish : MovesTo s s.finish
  | ready : MovesTo s { s with init_done := true }.finish

theorem State.begin_moves (s : State) (rest : List Item) (xs : List Step) : s.MovesTo (s.begin rest xs) := by
  induction xs with
  | nil => exact .finish
  | cons x xs ih =>
    simp only [State.begin]
    split
    · exact ih
    · next h => exact .enter x _ (by simpa using h)

theorem State.proceed_moves (s : State) (items : List Item) : s.MovesTo (s.proceed items) := by
  induction items with
  | nil => exact .finish
  | cons i rest ih =>
    match i with
    | .step x =>
      simp only [State.proceed]
      split
      · exact ih
      · next h => exact .enter x _ (by simpa using h)
    | .pollTest a =>
      simp only [State.proceed]
      split <;> exact s.begin_moves _ _
    | .ready => exact .ready

/-! ## One command -/

/-- What the edge that ends DECODE can do with a command: the fault ILLEGAL, the fault NOINIT, or the first step of its
step list. -/
inductive State.Decodes (s : State) : Instr → State → Prop where
  | illegal (arg1 arg0 : Byte) : Decodes s (.reserved arg1 arg0) (s.raiseFault .illegal)
  | noinit (i : Instr) (h : i.byteSent ≠ none) (hi : s.init_done = false) : Decodes s i (s.raiseFault .noinit)
  | cfg (arg1 arg0 : Byte) (rest : List Item) : Decodes s (.init arg1 arg0) (s.enter .cfg rest)
  | select (i : Instr) (b : Byte) (rs : Bool) (rest : List Item) (h : i.byteSent = some (b, rs))
      (hi : s.init_done = true) : Decodes s i (s.enter (.select rs b) rest)

theorem exec_decodes (i : Instr) (s t : State) (h : exec i s = .next t) : s.Decodes i t := by
  have byte : ∀ b rs, i.byteSent = some (b, rs) → s.Decodes i (s.byteCommand b rs) := by
    intro b rs hb
    unfold State.byteCommand
    split
    · next hi => exact .select i b rs _ hb hi
    · next hi => exact .noinit i (by simp [hb]) (by simpa using hi)
  cases i <;> cases h
  case init => exact .cfg ..
  case reserved => exact .illegal ..
  all_goals exact byte _ _ rfl

/-! ## One edge -/

/-- Everything an edge can do, by the position it leaves. -/
inductive State.Edge (s : State) : State → Prop where
  | reset (h : s.rst = true) : Edge s s.resetEdge
  | accept (w : CmdWord) (hr : s.rst = false) (hs : s.seq = .idle) (hw : s.hostMove.offered = some w) :
      Edge s { s with cmd_r := w, seq := .decode, host := s.host.tail }
  | stay (hr : s.rst = false) (hs : s.seq = .idle) (hw : s.hostMove.offered = none) : Edge s s.hostTick
  | decode (t : State) (hr : s.rst = false) (hs : s.seq = .decode) (h : s.hostTick.Decodes (decode s.cmd_r) t) : Edge s t
  | wait (d : Delay) (rest : List Item) (hr : s.rst = false) (hs : s.seq = .run (.wait d) rest) (hc : 1 < s.cnt) :
      Edge s { s.hostTick with cnt := s.cnt - 1 }
  | move (x : Step) (rest : List Item) (c : Nat) (hr : s.rst = false) (hs : s.seq = .run x rest)
      (hc : c = s.cnt ∨ c = 0) : Edge s ({ s.hostTick with cnt := c }.proceed rest)

theorem step_cases {s t : State} (h : step s = .next t) : s.Edge t := by
  unfold step at h
  split at h
  · next hr => cases h; exact .reset hr
  · next hr =>
    have hr : s.rst = false := by simpa using hr
    split at h
    · next hs =>
      cases h
      unfold State.idleEdge
      split
      · next w hw => exact .accept w hr hs hw
      · next hw => exact .stay hr hs hw
    · next hs => exact .decode t hr hs (exec_decodes _ _ _ h)
    · next x rest hs =>
      cases h
      unfold State.runEdge
      split
      · next d =>
        split
        · next hc => exact .wait d rest hr hs hc
        · exact .move _ rest 0 hr hs (.inr rfl)
      · exact .move _ rest s.cnt hr hs (.inl rfl)

end Sys2Proof.Machine
end

