-- ==== Sys2Proof/Laws/PerInstr.lean ====
section
/-! SUPPORT. What is said of every command, one lemma per constructor. -/

namespace Sys2Proof.Laws.EncodedFields

/-- The encoded word is `{op, arg1, arg0}` as a number (30_encoding.md R90): each field stands in its own bits. -/
def Statement (i : Instr) : Prop :=
  opField (encode i) = i.op ∧ arg1Field (encode i) = i.arg1 ∧ arg0Field (encode i) = i.arg0

theorem init (arg1 arg0 : Byte) : Statement (.init arg1 arg0) := by simp [Statement]
theorem wdata (arg1 arg0 : Byte) : Statement (.wdata arg1 arg0) := by simp [Statement]
theorem winstr (arg1 arg0 : Byte) : Statement (.winstr arg1 arg0) := by simp [Statement]
theorem setcur (arg1 arg0 : Byte) : Statement (.setcur arg1 arg0) := by simp [Statement]
theorem clear (arg1 arg0 : Byte) : Statement (.clear arg1 arg0) := by simp [Statement]
theorem home (arg1 arg0 : Byte) : Statement (.home arg1 arg0) := by simp [Statement]
theorem display (arg1 arg0 : Byte) : Statement (.display arg1 arg0) := by simp [Statement]
theorem reserved (arg1 arg0 : Byte) : Statement (.reserved arg1 arg0) := by simp [Statement]

end Sys2Proof.Laws.EncodedFields
end

