-- ==== Sys2Proof/Laws/Procedures.lean ====
section
/-! SUPPORT. What each shared operation does, said once: the writes of a step on the lines and on the trace, and each
procedure's step list from its first cycle to its last. -/

namespace Sys2Proof.Machine

/-! ## The writes of a step -/

/-- The fall of a driven E: a latch event with RW = 0, and only the line with RW = 1. -/
theorem State.fall_driven (s : State) (hc : s.ctl_oe = true) (he : s.e_o = true) :
    s.fall = if s.rw_o then { s with e_o := false } else { s with
      e_o := false
      draws := if s.d_oe then s.draws else s.draws + 1
      latched := s.latched ++ [(s.rs_o, s.dataLines none)] } := by
  cases hw : s.rw_o <;> simp [State.fall, State.lcdRs, State.lcdRw, State.lcdE, hc, he, hw]

@[simp] theorem State.fall_trace (s : State) : s.fall.trace = s.trace := by unfold State.fall; split <;> rfl

theorem State.lines_fall (s : State) : s.fall.lines = { s.lines with e := false } := by
  unfold State.fall; split <;> rfl

theorem State.busView_fall (s : State) : s.fall.busView = { s.busView with e := false } := by
  unfold State.fall; split <;> rfl

/-- A step does to the lines what `Lines.after` says. -/
theorem State.lines_apply (s : State) (x : Step) : (s.apply x).lines = s.lines.after x := by
  match x with
  | .cfg | .select _ _ | .drive _ | .dirIn | .readWrite _ | .selectInstr
  | .sample | .dirOut .ok | .dirOut .timeout | .enable true | .wait _ => rfl
  | .enable false => exact State.lines_fall s

/-- What a step leaves alone: the two faults of DECODE and the command word always, `init_done` but for `CFG`, and
TIMEOUT but for the end of a wait that timed out. -/
theorem State.apply_flags (s : State) (x : Step) :
    (s.apply x).err_illegal = s.err_illegal ∧ (s.apply x).err_noinit = s.err_noinit ∧
    (s.apply x).cmd_r = s.cmd_r ∧ (x = .cfg ∨ (s.apply x).init_done = s.init_done) ∧
    (x = .dirOut .timeout ∨ (s.apply x).err_timeout = s.err_timeout) := by
  match x with
  | .cfg | .select _ _ | .drive _ | .dirIn | .readWrite _ | .selectInstr
  | .sample | .dirOut .ok | .dirOut .timeout | .enable true | .wait _ =>
    simp [State.apply, State.emit, State.takeSample, State.setFault]
  | .enable false => simp only [State.apply, State.emit, State.fall]; split <;> simp

/-! ## The cycles of the procedures (70_reset_and_hazards.md R246) -/

theorem State.cyclesAll_pulse (s : State) : s.cyclesAll pulse = s.params.pulseCycles := by
  simp [pulse, State.cyclesAll, State.cycles, State.delay, Params.pulseCycles]; omega

theorem State.cyclesAll_nibble (s : State) (src : NibbleSource) : s.cyclesAll (nibble src) = s.params.nibbleCycles := by
  simp [nibble, pulse, State.cyclesAll, State.cycles, State.delay, Params.nibbleCycles]; omega

theorem State.cyclesAll_xfer (s : State) (b : Byte) (rs : Bool) : s.cyclesAll (xfer b rs) = s.params.xferCycles := by
  simp [xfer, nibble, pulse, State.cyclesAll, State.cycles, State.delay, Params.xferCycles]; omega

theorem State.cyclesAll_poll (s : State) : s.cyclesAll poll = s.params.pollCycles := by
  simp [poll, pulse, State.cyclesAll, State.cycles, State.delay, Params.pollCycles]; omega

/-! ## The effects of the procedures' step lists -/

theorem State.throughAll_nibble (s : State) (n : Nibble) (hl : s.params.Legal) (hw : s.WriteReady) :
    s.throughAll (nibble (.fixed n)) = s.afterNibble n := by
  obtain ⟨_, hs, hh, _⟩ := hl
  obtain ⟨h1, h2, h3, h4, h5, h6⟩ := hw
  have hs : s.params.nSettle ≠ 0 := by omega
  have hh : s.params.nHold ≠ 0 := by omega
  simp [nibble, pulse, State.through, State.apply, State.emit, State.delay, Delay.events, State.afterNibble, State.fall,
    State.lcdRs, State.lcdRw, State.lcdE, State.dataLines, State.lcdD, State.nibbleOf, nibbleEvents, pulseEvents, *]

theorem State.throughAll_xfer (s : State) (b : Byte) (rs : Bool) (hl : s.params.Legal) (hw : s.WriteReady) :
    s.throughAll (xfer b rs) = s.afterXfer b rs := by
  obtain ⟨_, hs, hh, _⟩ := hl
  obtain ⟨h1, h2, h3, h4, h5, h6⟩ := hw
  have hs : s.params.nSettle ≠ 0 := by omega
  have hh : s.params.nHold ≠ 0 := by omega
  simp [xfer, nibble, pulse, State.through, State.apply, State.emit, State.delay, Delay.events, State.afterXfer,
    State.fall, State.lcdRs, State.lcdRw, State.lcdE, State.dataLines, State.lcdD, State.nibbleOf, xferEvents,
    nibbleEvents, pulseEvents, xferLatches, *]

/-- The lines of the poll loop (43_busy_wait.md R152). -/
def State.Polling (s : State) : Prop :=
  s.ctl_oe = true ∧ s.d_oe = false ∧ s.d_pu = true ∧ s.rw_o = true ∧ s.e_o = false ∧ s.rs_o = false

/-- The block after one poll (43_busy_wait.md R151, R153). -/
def State.afterPoll (s : State) : State :=
  { s with
    busy_r := s.busyAt 0
    polls := if s.params.pollLimit = 0 then s.polls else s.polls + 1
    lcdAnswers := s.answersAfter 1
    draws := s.draws + 1
    cnt := 0
    trace := s.trace ++ pollEvents (s.busyAt 0) }

theorem State.throughAll_poll (s : State) (hl : s.params.Legal) (hp : s.Polling) : s.throughAll poll = s.afterPoll := by
  obtain ⟨_, hs, hh, _⟩ := hl
  obtain ⟨h1, h2, h3, h4, h5, h6⟩ := hp
  have hs : s.params.nSettle ≠ 0 := by omega
  have hh : s.params.nHold ≠ 0 := by omega
  cases lp : s.lcdPresent <;> cases la : s.lcdAnswers <;>
  simp [poll, pulse, State.through, State.apply, State.emit, State.delay, Delay.events, State.fall, State.lcdRs,
    State.lcdRw, State.lcdE, State.dataLines, State.lcdD, pollEvents, pulseEvents, State.takeSample, State.busyAt,
    State.answersAfter, State.lcdIn, State.lcdDrives, State.sampleAt, State.lcdAnswer, State.afterPoll, *]

/-- The block after the entry of a wait (43_busy_wait.md R152). -/
def State.afterEntry (s : State) : State :=
  { s with
    rs_o := false
    rw_o := true
    d_oe := false
    d_pu := true
    dir := .inp
    polls := if s.params.pollLimit = 0 then s.polls else 0
    trace := s.trace ++ waitEntryEvents }

theorem State.throughAll_waitEntry (s : State) : s.throughAll waitEntry = s.afterEntry := by
  simp [waitEntry, State.through, State.apply, State.emit, State.afterEntry, waitEntryEvents]

/-- The block after the exit of a wait with this result (43_busy_wait.md R157). -/
def State.afterExit (s : State) (r : WaitResult) : State :=
  { s with
    rw_o := false
    d_oe := true
    d_pu := false
    dir := .out
    err_timeout := s.err_timeout || r == .timeout
    trace := s.trace ++ waitExitEvents }

theorem State.throughAll_waitExit (s : State) (r : WaitResult) : s.throughAll (waitExit r) = s.afterExit r := by
  cases r <;>
  simp [waitExit, State.through, State.apply, State.emit, State.afterExit, waitExitEvents, State.setFault]

/-! ## The end of a poll -/

theorem State.begin_waitExit (s : State) (r : WaitResult) (rest : List Item) :
    s.begin rest (waitExit r) = s.proceed (steps (waitExit r) ++ rest) :=
  State.begin_eq_proceed _ _ _ ⟨.dirOut r, by simp [waitExit], rfl⟩

theorem State.begin_poll (s : State) (rest : List Item) : s.begin rest poll = s.proceed (steps poll ++ rest) :=
  State.begin_eq_proceed _ _ _ ⟨.enable true, by simp [poll], rfl⟩

/-- The samples after a poll are those from the next one on. -/
theorem State.busyAt_afterPoll (s : State) (j : Nat) : s.afterPoll.busyAt j = s.busyAt (j + 1) := by
  simp only [State.busyAt, State.sampleAt, State.afterPoll, State.answersAfter]
  by_cases h : s.lcdPresent = true <;> simp [h, Nat.add_assoc, Nat.add_comm 1]

/-- The samples after a wait of `k` polls are those from the sample `k` on. -/
theorem State.busyAt_afterWait (s : State) (k j : Nat) : (s.afterWait k).busyAt j = s.busyAt (k + j) := by
  simp only [State.busyAt, State.sampleAt, State.afterWait, State.answersAfter]
  by_cases h : s.lcdPresent = true <;> simp [h, Nat.add_assoc]

/-! ## Moving on along a step list, seen from the list -/

/-- A step sets TIMEOUT exactly when it is the last one of a wait that timed out. -/
theorem State.apply_err_timeout (s : State) (x : Step) :
    (s.apply x).err_timeout = true ↔ s.err_timeout = true ∨ x = .dirOut .timeout := by
  by_cases hx : x = .dirOut .timeout
  · simp [hx, State.apply, State.setFault]
  · rcases (s.apply_flags x).2.2.2.2 with h | h
    · exact absurd h hx
    · simp [h, hx]

/-- No step sets `init_done`. -/
theorem State.apply_init_done (s : State) (x : Step) (h : s.init_done = false) : (s.apply x).init_done = false := by
  rcases (s.apply_flags x).2.2.2.1 with rfl | e
  · rfl
  · rw [e, h]

theorem State.begin_init_done (s : State) (rest : List Item) (xs : List Step) (h : s.init_done = false) :
    (s.begin rest xs).init_done = false := by
  induction xs with
  | nil => exact h
  | cons x xs ih =>
    simp only [State.begin]
    split
    · exact ih
    · exact State.apply_init_done s x h

/-- The step list that moving on leaves has the end of INIT only if the list before had it. -/
theorem State.begin_keeps_ready (s : State) (rest : List Item) (xs : List Step) {x : Step} {after : List Item}
    (h : (s.begin rest xs).seq = .run x after) (hm : .ready ∈ after) : .ready ∈ rest := by
  induction xs with
  | nil => cases h
  | cons y xs ih =>
    simp only [State.begin] at h
    split at h
    · exact ih h
    · simp only [State.enter_seq, Seq.run.injEq] at h
      obtain ⟨-, rfl⟩ := h
      simpa [Machine.steps] using hm

theorem State.proceed_keeps_ready (s : State) (items : List Item) {x : Step} {after : List Item}
    (h : (s.proceed items).seq = .run x after) (hm : .ready ∈ after) : .ready ∈ items := by
  induction items with
  | nil => cases h
  | cons i rest ih =>
    match i with
    | .ready => cases h
    | .step y =>
      simp only [State.proceed] at h
      split at h
      · exact List.mem_cons_of_mem _ (ih h)
      · simp only [State.enter_seq, Seq.run.injEq] at h
        obtain ⟨-, rfl⟩ := h
        exact List.mem_cons_of_mem _ hm
    | .pollTest a =>
      simp only [State.proceed] at h
      split at h
      · exact List.mem_cons_of_mem _ (State.begin_keeps_ready _ _ _ h hm)
      · have hr := State.begin_keeps_ready _ _ _ h hm
        cases a
        · exact List.mem_cons_of_mem _ hr
        · simp [OnTimeout.rest] at hr
      · exact State.begin_keeps_ready _ _ _ h hm

end Sys2Proof.Machine
end

