-- ==== Sys2Proof/Tests/Slice0.lean ====
section
/-! SUPPORT. The model's own tests, with expected results from spec/95_test_vectors.md or by hand from the rules, and a
witness for every statement that has hypotheses. -/

open Sys2Proof Sys2Proof.Machine

namespace Sys2Proof.Tests

/-! ## Well-formedness: one ill-formed command for each check (30_encoding.md R96, R97, R101) -/

theorem test_init_arg1_refused : (Instr.init 1 0).wellFormed = false := by decide
theorem test_init_arg0_refused : (Instr.init 0 1).wellFormed = false := by decide
theorem test_wdata_arg1_refused : (Instr.wdata 0xFF 0x41).wellFormed = false := by decide
theorem test_winstr_arg1_refused : (Instr.winstr 1 0).wellFormed = false := by decide
theorem test_clear_arg1_refused : (Instr.clear 0xAB 0).wellFormed = false := by decide
theorem test_clear_arg0_refused : (Instr.clear 0 0xCD).wellFormed = false := by decide
theorem test_home_arg1_refused : (Instr.home 1 0).wellFormed = false := by decide
theorem test_home_arg0_refused : (Instr.home 0 1).wellFormed = false := by decide
theorem test_display_arg1_refused : (Instr.display 1 0).wellFormed = false := by decide
theorem test_display_two_refused : (Instr.display 0 2).wellFormed = false := by decide
theorem test_reserved_refused : (Instr.reserved 0 0).wellFormed = false := by decide
theorem test_setcur_accepted : (Instr.setcur 0xFF 0xFF).wellFormed = true := by decide

/-! ## Decoding: words written out from 30_encoding.md R90 and R92, with op, arg1 and arg0 apart -/

theorem test_decode_init : decode 0b000_00000000_00000000#19 = .init 0 0 := by decide
theorem test_decode_wdata : decode 0b001_11111111_01000001#19 = .wdata 0xFF 0x41 := by decide
theorem test_decode_winstr : decode 0b010_00000000_00000001#19 = .winstr 0 0x01 := by decide
theorem test_decode_setcur : decode 0b011_00000001_00000101#19 = .setcur 0x01 0x05 := by decide
theorem test_decode_clear : decode 0b100_10101011_11001101#19 = .clear 0xAB 0xCD := by decide
theorem test_decode_home : decode 0b101_00000000_00000000#19 = .home 0 0 := by decide
theorem test_decode_display : decode 0b110_00000000_00000010#19 = .display 0 2 := by decide
theorem test_decode_reserved : decode 0b111_11111111_11111111#19 = .reserved 0xFF 0xFF := by decide

/-- ENC-4 of 95_test_vectors.md. -/
theorem test_encode_setcur : encode (.setcur 1 5) = 0x30105#19 := by decide

/-- The opcode table's word of DISPLAY, in whole bytes, with bit 0 of `arg0`. -/
theorem test_decode_table_word : decodeTableWord 24 0x60001 = some (.display 0 1) := by decide
theorem test_decode_number_too_wide : decodeNumber 0x80000 = .error .tooWide := by decide

/-! ## Operands: the tables of 95_test_vectors.md -/

theorem test_cursor_byte_last_column : cursorByte 15 1 = 0xCF#8 := by decide
theorem test_cursor_byte_column_into_row : cursorByte 64 0 = 0xC0#8 := by decide
theorem test_cursor_byte_row_three : cursorByte 0 3 = 0xC0#8 := by decide
theorem test_cursor_byte_row_two : cursorByte 0 2 = 0x80#8 := by decide
theorem test_cursor_byte_column_200 : cursorByte 200 0 = 0xC8#8 := by decide

/-! ## One edge of each command -/

/-- The state an outcome holds, for looking at its fields. -/
def after (o : Host.Outcome State Fault Refusal) : State :=
  match o with
  | .next s => s
  | .fault _ => State.reset
  | .refused _ => State.reset

/-- The parameters of INIT-1 in 95_test_vectors.md: a clock of 1000 Hz, so `N_POR1` = 5 and `N_POR2` = 1. -/
def toy : Params := Params.taken 1000 0 0

theorem test_toy_delays : toy.nPor1 = 5 ∧ toy.nPor2 = 1 ∧ toy.cntW = 3 := by decide

/-- A block in IDLE after an INIT (status 0x07), whose LCD is there. -/
def ready : State :=
  { State.reset with
    params := toy, init_done := true, ctl_oe := true, dir := .out, d_oe := true, lcdAnswers := [0, 0, 0] }

theorem test_ready_status : ready.status = 0x07#8 := by decide

/-- CMD-1: `RS=1` at cycle 2. -/
theorem test_wdata_begins :
    let t := after (step (ready.withFetchWord 19 0x10041))
    t.rs_o = true ∧ t.tx_byte = 0x41#8 ∧ t.trace = [.rs true] ∧ t.status = 0x06#8 := by decide

/-- EX-1: NOINIT after reset. -/
theorem test_wdata_before_init : (after (step (State.reset.withFetchWord 19 0x10041))).status = 0x21#8 := by decide

/-- CMD-4: RS = 0 and byte 0x01. -/
theorem test_winstr_begins :
    let t := after (step (ready.withFetchWord 19 0x20001))
    t.trace = [.rs false] ∧ t.tx_byte = 0x01#8 := by decide

/-- ENC-4: column 5 of row 1 is byte 0xC5. -/
theorem test_setcur_begins :
    let t := after (step (ready.withFetchWord 19 0x30105))
    t.trace = [.rs false] ∧ t.tx_byte = 0xC5#8 := by decide

/-- ENC-11: ignored fields set. -/
theorem test_clear_begins : (after (step (ready.withFetchWord 19 0x4ABCD))).tx_byte = 0x01#8 := by decide

/-- ENC-7. -/
theorem test_home_begins : (after (step (ready.withFetchWord 19 0x50000))).tx_byte = 0x80#8 := by decide

/-- ENC-9. -/
theorem test_display_on_begins : (after (step (ready.withFetchWord 19 0x60001))).tx_byte = 0x0E#8 := by decide

/-- ENC-12: only bit 0 counts. -/
theorem test_display_two_is_off : (after (step (ready.withFetchWord 19 0x60002))).tx_byte = 0x08#8 := by decide

/-- INIT-1: `CFG` at cycle 2, after which DIR = OUT. -/
theorem test_init_begins :
    let t := after (step (State.reset.withFetchWord 19 0x00000))
    t.trace = [.cfg] ∧ t.status = 0x04#8 ∧ t.d_oe = true ∧ t.ctl_oe = true := by decide

/-- INIT-5: a repeated INIT clears `init_done` at `CFG`. -/
theorem test_init_clears_init_done : (after (step (ready.withFetchWord 19 0x00000))).status = 0x04#8 := by decide

/-- EX-2: ILLEGAL is tested before NOINIT. -/
theorem test_reserved_before_init : (after (step (State.reset.withFetchWord 19 0x70000))).status = 0x11#8 := by decide

/-- EX-3. -/
theorem test_reserved_after_init : (after (step (ready.withFetchWord 19 0x7FFFF))).status = 0x17#8 := by decide

/-- RS-4: with `rst` = 1 an offered word is not accepted. -/
theorem test_reset_wins :
    let t := after (step { ready with host := [.reset (some 0x10041)], busy_r := true })
    t.status = 0x01#8 ∧ t.lcdE = none ∧ t.host = [] := by decide

/-- A nibble reaches the LCD at the fall of E (20_memory.md R66): the low nibble of 0x41 with RS = 1. -/
theorem test_latch_at_the_fall :
    (ready.apply (.select true 0x41) |>.apply (.drive .txLow) |>.apply (.enable true) |>.apply (.enable false)).latched =
      [(true, 0x1#4)] := by decide

/-- BW-7 and R77: with no LCD the pull-ups read 1. -/
theorem test_disconnected_sample :
    ({ ready with lcdPresent := false }.afterEntry.apply (.enable true) |>.takeSample).busy_r = true := by decide

/-- `BUSY_BIT` chooses the bit: nibble 0b0111 is ready in bit 3. -/
theorem test_sample_takes_bit_three :
    let t := ({ ready with lcdAnswers := [0b0111#4, 0] }.afterEntry.apply (.enable true)).takeSample
    t.busy_r = false ∧ t.lcdAnswers = [0] := by decide

/-! ## The host's sequences and the assembler (45_host_sequences.md, 30_encoding.md R101, R102) -/

/-- S5: `write_number(-32768)`. -/
theorem test_decimal_most_negative : decimal (-32768) = [0x2D, 0x33, 0x32, 0x37, 0x36, 0x38] := by decide

/-- S3: `write_number(0)`. -/
theorem test_decimal_zero : decimal 0 = [0x30] := by decide

/-- HS-9, with the terminator and what follows it left out. -/
theorem test_wstr_stops : wstr [0x48, 0x69, 0x00, 0x41] = [.wdata 0 0x48, .wdata 0 0x69] := by decide

/-- `SETCUR 5, 1` (ENC-4), with a comment. -/
theorem test_assemble_setcur :
    assembleText ['s', 'e', 't', 'c', 'u', 'r', ' ', '5', ',', ' ', '1', ';', 'x'] = some [0x30105#19] := by decide

/-- `WDATA 'A'` (ENC-2). -/
theorem test_assemble_char :
    assembleText ['W', 'D', 'A', 'T', 'A', ' ', singleQuote, 'A', singleQuote] = some [0x10041#19] := by decide

/-- `WNUM -5` (30_encoding.md R102). -/
theorem test_assemble_wnum : assembleText ['W', 'N', 'U', 'M', ' ', '-', '5'] = some [0x1002D#19, 0x10035#19] := by decide

/-- `DISPLAY 2` and an operand over 255 are refused (30_encoding.md R101). -/
theorem test_assemble_refuses :
    assembleText ['D', 'I', 'S', 'P', 'L', 'A', 'Y', ' ', '2'] = none ∧
    assembleText ['W', 'D', 'A', 'T', 'A', ' ', '2', '5', '6'] = none := by decide

/-! ## Witnesses: concrete states and operands that meet the hypotheses of each statement -/

/-- The toy block with a poll limit. -/
def limited (n : Nat) : Params := { toy with pollLimit := n, pcntW := bitsFor n }

/-- A ready block with no LCD. -/
def alone : State := { ready with lcdPresent := false }

/-- A ready block with no LCD and a limit of so many polls. -/
def aloneLimited (n : Nat) : State := { alone with params := limited n }

theorem toy_legal : toy.Legal := by decide
theorem limited_legal : (limited 1).Legal ∧ (limited 2).Legal := by decide

theorem ready_writeReady : ready.WriteReady := by unfold State.WriteReady; decide
theorem alone_writeReady : alone.WriteReady := ready_writeReady
theorem aloneLimited_writeReady (n : Nat) : (aloneLimited n).WriteReady := ready_writeReady

theorem quiet_nil (n : Nat) : quietFor n [] = true := by cases n <;> rfl

/-- With no LCD every sample is busy, whichever bit carries the flag (20_memory.md R77). -/
theorem busy_alone (s : State) (h : s.lcdPresent = false) (j : Nat) : s.busyAt j = true := by
  have bits : ∀ k : Fin 4, (0xF#4).getLsbD k = true := by decide
  simp only [State.busyAt, State.sampleAt, h]
  exact bits _

/-- The ready block's LCD answers at the first poll. -/
theorem ready_after_one : ready.ReadyAfter 0 1 := ⟨by decide, by omega, by decide, .inl rfl⟩

/-- An LCD that answers busy and then ready, in a block whose limit is just enough (BW-5). -/
def secondPoll : State := { ready with params := limited 2, lcdAnswers := [0b1000#4, 0] }

theorem secondPoll_ready_after_two : secondPoll.ReadyAfter 0 2 := by
  refine ⟨by decide, fun j h => ?_, by decide, .inr (by decide)⟩
  obtain rfl : j = 0 := by omega
  decide

/-- The one poll allowed samples busy (BW-6). -/
theorem timesOut_one : (aloneLimited 1).TimesOut 0 := ⟨by decide, fun _ _ => busy_alone _ rfl _⟩

theorem witness_OnlyNineteenBitNumbersAreCommands : (0x7FFFF < 2 ^ 19) ∧ (2 ^ 19 ≤ 0x80000) := by decide

theorem witness_IgnoredBitsChangeNothing : (2#8).getLsbD 0 = (0#8).getLsbD 0 := by decide

theorem witness_CursorByteInRange : (15#8).toNat ≤ 15 ∧ (1#8).toNat ≤ 1 := by decide

theorem witness_DisplayByteDependsOnBitZero : (1#8).getLsbD 0 = true ∧ (2#8).getLsbD 0 = false := by decide

/-- A block in the middle of a command, and a reset with a word offered. -/
def resetting : State :=
  { ready with seq := .run .dirIn [], host := [.reset (some 0x10041)], err_noinit := true, busy_r := true }

theorem witness_ResetRegisters : resetting.rst = true := by decide

theorem witness_ResetWinsOverEverything : resetting.rst = true ∧ resetting.hostMove.offered = some 0x10041 := by decide

/-- A ready block with a host that offers a word. -/
def offered : State := { ready with host := [.offer 0x10041] }

theorem witness_AcceptanceEdge :
    offered.seq = .idle ∧ offered.rst = false ∧ offered.hostMove.offered = some 0x10041 ∧
    ready.seq = .idle ∧ ready.rst = false ∧ ready.hostMove.offered = none := by decide

theorem witness_BusyBlockIgnoresOffers :
    ({ ready with seq := .decode } : State).seq ≠ .idle ∧ ({ ready with host := [.offer 0x10041] } : State).rst = false ∧
    ({ ready with host := [] } : State).rst = false := by decide

theorem witness_StepRunsTheDecodedCommand :
    ({ ready with seq := .decode } : State).seq = .decode ∧ ({ ready with seq := .decode } : State).rst = false := by
  decide

/-- A wait with one cycle left, and one with three. -/
def waiting (n : Nat) : State := { ready with seq := .run (.wait .hold) [.step (.enable false)], cnt := n }

theorem witness_WaitLastsItsCycles :
    (waiting 1).seq = .run (.wait .hold) [.step (.enable false)] ∧ (waiting 1).cnt = 0 + 1 ∧
    (waiting 3).cnt = 2 + 1 ∧ quietFor 1 (waiting 1).host = true ∧ quietFor 3 (waiting 3).host = true := by decide

theorem witness_ReservedOpcodeRaisesIllegal : opField 0x7FFFF#19 = 0b111#3 := by decide

theorem witness_CommandsBeforeInitRaiseNoinit :
    State.reset.init_done = false ∧ opField 0x1FF41#19 ≠ 0b000#3 ∧ opField 0x1FF41#19 ≠ 0b111#3 ∧
    opField 0x60001#19 ≠ 0b000#3 ∧ opField 0x60001#19 ≠ 0b111#3 := by decide

theorem witness_ByteCommandsBeginWithSelect :
    (Instr.wdata 0 0x41).byteSent = some (0x41#8, true) ∧ ready.init_done = true := by decide

/-- The first cycle of `PULSE`, its last settle cycle, its first with E high and its last. -/
theorem witness_EnableIsHighForHoldPlusOneCycles :
    ready.params.Legal ∧ ready.e_o = false ∧ quietFor ready.params.pulseCycles ready.host = true ∧
    (∃ u, runFor 0 (ready.proceed (steps pulse ++ [])) = .next u) ∧
    (∃ u, runFor 1 (ready.proceed (steps pulse ++ [])) = .next u ∧ u.e_o = true) ∧
    (∃ u, runFor 3 (ready.proceed (steps pulse ++ [])) = .next u ∧ u.e_o = false) ∧ 3 < ready.params.pulseCycles :=
  ⟨toy_legal, rfl, by decide, ⟨_, rfl⟩, ⟨_, rfl, rfl⟩, ⟨_, rfl, rfl⟩, by decide⟩

/-- The lines of a poll. -/
def polling : State := ready.afterEntry

theorem witness_ReadPulseStoresNothing :
    polling.params.Legal ∧ polling.ctl_oe = true ∧ polling.rw_o = true ∧ polling.e_o = false ∧
    quietFor polling.params.pulseCycles polling.host = true := ⟨toy_legal, rfl, rfl, rfl, by decide⟩

theorem witness_NibbleIsOneLatchEvent :
    ready.params.Legal ∧ ready.WriteReady ∧ quietFor ready.params.nibbleCycles ready.host = true :=
  ⟨toy_legal, ready_writeReady, by decide⟩

/-- A host that holds an offer all through the transfer. -/
theorem witness_ByteTransferIsTwoLatchEvents :
    offered.params.Legal ∧ offered.WriteReady ∧ quietFor offered.params.xferCycles offered.host = true :=
  ⟨toy_legal, ready_writeReady, by decide⟩

theorem witness_BusyWaitEndsAtTheFirstReadySample :
    (ready.params.Legal ∧ ready.WriteReady ∧ ready.ReadyAfter 0 1 ∧
      quietFor (ready.params.waitCycles 1) ready.host = true) ∧
    (secondPoll.params.Legal ∧ secondPoll.WriteReady ∧ secondPoll.ReadyAfter 0 2 ∧
      quietFor (secondPoll.params.waitCycles 2) secondPoll.host = true) :=
  ⟨⟨toy_legal, ready_writeReady, ready_after_one, quiet_nil _⟩,
    ⟨limited_legal.2, ready_writeReady, secondPoll_ready_after_two, quiet_nil _⟩⟩

theorem witness_BusyWaitTimesOutAtTheLimit :
    (aloneLimited 1).params.Legal ∧ (aloneLimited 1).WriteReady ∧ (aloneLimited 1).TimesOut 0 ∧
    quietFor ((aloneLimited 1).params.waitCycles (aloneLimited 1).params.pollLimit) (aloneLimited 1).host = true :=
  ⟨limited_legal.1, aloneLimited_writeReady 1, timesOut_one, quiet_nil _⟩

theorem witness_ByteCommandsComplete :
    ready.init_done = true ∧ ready.params.Legal ∧ ready.WriteReady ∧ ready.ReadyAfter 0 1 ∧
    quietFor (ready.params.byteBusy 1 - 1) ready.host = true :=
  ⟨rfl, toy_legal, ready_writeReady, ready_after_one, quiet_nil _⟩

theorem witness_ByteCommandsTimeOut :
    (Instr.clear 0 0).byteSent = some (0x01#8, false) ∧ (aloneLimited 1).init_done = true ∧
    (aloneLimited 1).params.Legal ∧ (aloneLimited 1).WriteReady ∧ (aloneLimited 1).TimesOut 0 ∧
    quietFor ((aloneLimited 1).params.byteBusy (aloneLimited 1).params.pollLimit - 1) (aloneLimited 1).host = true :=
  ⟨rfl, rfl, limited_legal.1, aloneLimited_writeReady 1, timesOut_one, quiet_nil _⟩

/-- The block after reset with the toy parameters, and an LCD that is ready at the first five polls. -/
def fresh : State := { State.reset with params := toy, lcdAnswers := [0, 0, 0, 0, 0] }

theorem fresh_ready (o : Nat) (h : o < 5) : fresh.ReadyAfter o 1 := by
  refine ⟨by decide, by omega, ?_, .inl rfl⟩
  obtain rfl | rfl | rfl | rfl | rfl : o = 0 ∨ o = 1 ∨ o = 2 ∨ o = 3 ∨ o = 4 := by omega
  all_goals decide

theorem witness_InitCompletes :
    fresh.params.Legal ∧ [1, 1, 1, 1].length = 4 ∧ fresh.ReadyInTurn 0 [1, 1, 1, 1, 1] ∧
    quietFor (fresh.params.initBusy (1 + [1, 1, 1, 1].sum) - 1) fresh.host = true :=
  ⟨toy_legal, rfl, ⟨fresh_ready 0 (by omega), fresh_ready 1 (by omega), fresh_ready 2 (by omega),
    fresh_ready 3 (by omega), fresh_ready 4 (by omega), trivial⟩, quiet_nil _⟩

theorem witness_InitAbortsAtTheModeSwitch :
    (aloneLimited 1).params.Legal ∧ (aloneLimited 1).TimesOut 0 ∧
    quietFor ((aloneLimited 1).params.coldStartCycles +
      (aloneLimited 1).params.waitCycles (aloneLimited 1).params.pollLimit) (aloneLimited 1).host = true :=
  ⟨limited_legal.1, timesOut_one, quiet_nil _⟩

/-- A block with a limit of one poll whose LCD is ready so many times and busy after that. -/
def failing (answers : List Nibble) : State := { fresh with params := limited 1, lcdAnswers := answers }

/-- The wait of the first byte, and that of the last. -/
theorem witness_InitAbortsAtAByte :
    (initBytes[([] : List Nat).length]? = some 0x28#8 ∧ (failing [0, 8]).params.Legal ∧
      (failing [0, 8]).ReadyInTurn 0 [1] ∧ (failing [0, 8]).TimesOut (1 + ([] : List Nat).sum)) ∧
    (initBytes[[1, 1, 1].length]? = some 0x0E#8 ∧ (failing [0, 0, 0, 0, 8]).params.Legal ∧
      (failing [0, 0, 0, 0, 8]).ReadyInTurn 0 [1, 1, 1, 1] ∧
      (failing [0, 0, 0, 0, 8]).TimesOut (1 + [1, 1, 1].sum)) ∧ ∀ n a, quietFor n (failing a).host = true := by
  have one : ∀ a o, (failing a).busyAt o = false → (failing a).ReadyAfter o 1 :=
    fun _ _ h => ⟨by decide, by omega, h, .inr (le_refl 1)⟩
  have out : ∀ a o, (failing a).busyAt o = true → (failing a).TimesOut o :=
    fun _ _ h => ⟨Nat.one_ne_zero, fun j hj => by obtain rfl : j = 0 := Nat.lt_one_iff.mp hj; exact h⟩
  exact ⟨⟨rfl, limited_legal.1, ⟨one _ _ (by decide), trivial⟩, out _ _ (by decide)⟩,
    ⟨rfl, limited_legal.1, ⟨one _ _ (by decide), one _ _ (by decide), one _ _ (by decide), one _ _ (by decide), trivial⟩,
      out _ _ (by decide)⟩, fun n _ => quiet_nil n⟩

/-- A byte command on ready lines, and INIT after reset. -/
theorem witness_UnreadyLcdHangsTheBlock :
    ((Instr.wdata 0 0x41).byteSent ≠ none ∧ alone.init_done = true ∧ alone.WriteReady) ∧
    (Instr.init 0 0).op = 0b000#3 ∧ alone.params.Legal ∧ alone.params.pollLimit = 0 ∧
    (∀ j, alone.busyAt j = true) ∧ ∀ n, quietFor n alone.host = true :=
  ⟨⟨by decide, rfl, alone_writeReady⟩, rfl, toy_legal, rfl, busy_alone _ rfl, quiet_nil⟩

theorem witness_DisconnectedLcdReadsBusy :
    alone.afterEntry.lcdPresent = false ∧ alone.afterEntry.d_oe = false ∧ alone.afterEntry.d_pu = true := by decide

theorem witness_ReadyLcdLetsCommandsEnd :
    (Instr.home 0 0).byteSent ≠ none ∧ ready.init_done = true ∧ ready.WriteReady ∧ ready.params.Legal ∧
    ready.params.pollLimit = 0 ∧ (∃ j, ready.busyAt j = false) ∧ ∀ n, quietFor n ready.host = true :=
  ⟨by decide, rfl, ready_writeReady, toy_legal, rfl, ⟨0, by decide⟩, quiet_nil⟩

/-! ### Witnesses of the rules over all edges -/

theorem ready_lineInv : ready.LineInv where
  ctl := by decide
  oe := by decide
  pu := by decide
  noContention := by decide
  idle := by decide
  run := fun _ _ h => by cases h

theorem witness_EveryEdgeKeepsTheLineInvariant : ready.LineInv ∧ ∃ t, step ready = .next t := ⟨ready_lineInv, _, rfl⟩

/-- A command at the end of a poll, with the invariant. -/
def testing : State := { polling with seq := .run (.enable false) [.pollTest .carryOn], busy_r := true, polls := 1,
                                      params := limited 2 }

theorem testing_lineInv : testing.LineInv where
  ctl := by decide
  oe := by decide
  pu := by decide
  noContention := by decide
  idle := by decide
  run := fun _ _ h => by cases h; exact ⟨by decide, by decide⟩

theorem witness_EveryEdgeKeepsTheLineInvariant_in_a_poll : testing.LineInv ∧ ∃ t, step testing = .next t :=
  ⟨testing_lineInv, _, rfl⟩

theorem witness_EveryEdgeKeepsTheCounterInvariant :
    testing.params.Legal ∧ testing.CounterInv ∧ ∃ t, step testing = .next t :=
  ⟨limited_legal.2,
    { cnt := by decide, noPolls := by decide, polls := by decide
      run := fun _ _ _ h => by cases h; decide }, _, rfl⟩

/-- A settle wait that is over before E rises, in a write and in a poll. -/
def rising (s : State) (rest : List Item) : State := { s with seq := .run (.wait .settle) rest, cnt := 1 }

theorem witness_EnableRisesOnlyForAWriteOrAStatusRead :
    (let s := rising ready (steps [.enable true, .wait .hold, .enable false])
     s.LineInv ∧ s.e_o = false ∧ ∃ t, step s = .next t ∧ t.e_o = true) ∧
    (let s := rising polling (steps [.enable true, .wait .hold, .sample, .enable false, .readWrite false, .dirOut .ok])
     s.LineInv ∧ s.e_o = false ∧ ∃ t, step s = .next t ∧ t.e_o = true) := by
  refine ⟨⟨⟨?_, ?_, ?_, ?_, ?_, ?_⟩, rfl, _, rfl, rfl⟩, ⟨⟨?_, ?_, ?_, ?_, ?_, ?_⟩, rfl, _, rfl, rfl⟩⟩
  all_goals first | decide | exact fun _ _ h => by cases h; exact ⟨by decide, by decide⟩

/-- A hold wait that is over before E falls, in a write. -/
def falling : State := { ready with e_o := true, seq := .run (.wait .hold) [.step (.enable false)], cnt := 1 }

theorem falling_lineInv : falling.LineInv where
  ctl := by decide
  oe := by decide
  pu := by decide
  noContention := by decide
  idle := by decide
  run := fun _ _ h => by cases h; exact ⟨by decide, by decide⟩

theorem witness_LinesAreStableWhileEnableIsHigh :
    falling.LineInv ∧ falling.rst = false ∧ falling.e_o = true ∧ ∃ t, step falling = .next t ∧ t.e_o = false :=
  ⟨falling_lineInv, by decide, rfl, _, rfl, rfl⟩

theorem witness_LatchEventsAreTheFallsOfEnable :
    falling.LineInv ∧ falling.rst = false ∧ ∃ t, step falling = .next t ∧ t.latched = [(false, 0#4)] :=
  ⟨falling_lineInv, by decide, _, rfl, by decide⟩

theorem witness_StatusIsLegal :
    ready.LineInv ∧ ready.status.getLsbD 0 = true ∧ ready.status.getLsbD 1 = true := ⟨ready_lineInv, by decide, by decide⟩

/-- An edge with an event and one without. -/
theorem witness_TraceAccountsForTheLines :
    falling.rst = false ∧ (∃ t, step falling = .next t ∧ t.trace = [.e false]) ∧
    offered.rst = false ∧ ∃ t, step offered = .next t ∧ t.trace = [] :=
  ⟨by decide, ⟨_, rfl, rfl⟩, by decide, _, rfl, rfl⟩

/-- A block with all three flags set, with a reset and without. -/
def faulted : State := { ready with err_illegal := true, err_noinit := true, err_timeout := true }

theorem witness_FaultFlagsAreSticky :
    (faulted.rst = false ∧ faulted.err_illegal = true ∧ faulted.err_noinit = true ∧ faulted.err_timeout = true ∧
      ∃ t, step faulted = .next t) ∧
    (let s : State := { faulted with host := [.reset none] }
     s.rst = true ∧ ∃ t, step s = .next t) := ⟨⟨by decide, rfl, rfl, rfl, _, rfl⟩, by decide, _, rfl⟩

/-- The step before the last one of a wait that times out. -/
def timingOut : State :=
  { aloneLimited 1 with
    d_oe := false, d_pu := true, dir := .inp, busy_r := true, polls := 1
    seq := .run (.readWrite false) [.step (.dirOut .timeout)] }

theorem timingOut_inv : timingOut.TimeoutInv := by
  intro current rest h
  cases h
  exact ⟨by simp, .inr ⟨[], rfl, rfl, by simp [noTimeout], by decide, rfl, rfl⟩⟩

theorem witness_FaultFlagsAreSetOnlyByTheirCause :
    timingOut.rst = false ∧ timingOut.TimeoutInv ∧
    ∃ t, step timingOut = .next t ∧ t.seq = .run (.dirOut .timeout) [] ∧ t.err_timeout = true :=
  ⟨by decide, timingOut_inv, _, rfl, rfl, by decide⟩

/-- Before the last step of a wait that times out, and in one that has just polled. -/
theorem witness_EveryEdgeKeepsTheTimeoutInvariant :
    (timingOut.TimeoutInv ∧ ∃ t, step timingOut = .next t) ∧ testing.TimeoutInv ∧ ∃ t, step testing = .next t := by
  refine ⟨⟨timingOut_inv, _, rfl⟩, fun current rest h => ?_, _, rfl⟩
  cases h
  exact ⟨by simp, .inl (by simp [noTimeout])⟩

/-- In the sampling pulse the sampling step, the last with E high; in the dummy pulse the last cycle, with E low. -/
theorem witness_EnableIsHighLongerInASamplingPulse :
    polling.params.Legal ∧ polling.e_o = false ∧ quietFor polling.params.pollCycles polling.host = true ∧
    (3 < polling.params.pollCycles ∧ ∃ u, runFor 3 (polling.proceed (steps poll ++ [])) = .next u ∧ u.e_o = true) ∧
    8 < polling.params.pollCycles ∧ ∃ u, runFor 8 (polling.proceed (steps poll ++ [])) = .next u ∧ u.e_o = false :=
  ⟨toy_legal, rfl, by decide, ⟨by decide, _, rfl, rfl⟩, by decide, _, rfl, rfl⟩

/-- INIT at DECODE, whose list has its end ahead, and the last step of its last wait. -/
theorem witness_InitDoneChangesOnlyInInit :
    (let s : State := { ready with seq := .decode }
     s.rst = false ∧ s.init_done = true ∧
     ∃ t rest, step s = .next t ∧ t.init_done = false ∧ t.seq = .run .cfg rest ∧ .ready ∈ rest) ∧
    (let s : State := { ready with init_done := false, seq := .run (.dirOut .ok) [.ready] }
     s.rst = false ∧ s.init_done = false ∧ ∃ t, step s = .next t ∧ t.init_done = true) :=
  ⟨⟨by decide, rfl, _, _, rfl, rfl, rfl, by decide⟩, by decide, rfl, _, rfl, rfl⟩

theorem witness_CommandWordIsConstantWhileBusy :
    falling.rst = false ∧ falling.seq ≠ .idle ∧ ∃ t, step falling = .next t := ⟨by decide, by decide, _, rfl⟩

theorem witness_ParametersAreFixed : ∃ t, step resetting = .next t := ⟨_, rfl⟩

theorem witness_OnlyResetReleasesTheControlLines :
    ready.rst = false ∧ ready.ctl_oe = true ∧ ∃ t, step ready = .next t := ⟨by decide, rfl, _, rfl⟩

theorem witness_StatusWordFields : ready.rst = false := by decide

theorem witness_WstrStopsAtTheTerminator : ∀ c ∈ [0x48#8, 0x69#8], c ≠ 0x00#8 := by decide

/-- A host that writes "Hi" to a ready block whose LCD answers ready twice. -/
def writing : State := { ready with host := hostOffers (wstr [0x48, 0x69]) }

theorem witness_IssuedTextReachesTheLcd :
    writing.seq = .idle ∧ writing.init_done = true ∧ writing.WriteReady ∧ writing.params.Legal ∧
    (∀ c ∈ [0x48#8, 0x69#8], c ≠ 0x00#8) ∧ writing.host = hostOffers (wstr [0x48, 0x69]) ∧
    ∀ j, j < [0x48#8, 0x69#8].length → writing.busyAt j = false := by
  refine ⟨rfl, rfl, ready_writeReady, toy_legal, by decide, rfl, fun j h => ?_⟩
  obtain rfl | rfl : j = 0 ∨ j = 1 := by simp at h; omega
  all_goals decide

theorem witness_AssemblerWritesTheWords : 1 < 2 ∧ 255 ≤ 255 ∧ 255 < 256 ∧ 0x7FFFF < 0x80000 ∧ 0x80000 ≤ 0x80000 := by
  decide

theorem witness_MnemonicsWriteWellFormedCommands :
    assemble (.wstr [0x48]) = some [0x10048#19] ∧ (∀ n, AsmLine.wstr [0x48] ≠ .word n) ∧ 0x10048#19 ∈ [0x10048#19] :=
  ⟨by decide, by simp, by decide⟩

end Sys2Proof.Tests
end

section
/-! The reset edge and the reset values of the registers (10_state.md R42, 70_reset_and_hazards.md R230). -/

namespace Sys2Proof.Machine

/-- `rst` wins over every position of the sequencer (60_exceptions.md R207). -/
theorem step_of_rst {s : State} (h : s.rst = true) : step s = .next s.resetEdge := by
  rw [step, if_pos h]

theorem State.status_reset : State.reset.status = 0x01#8 := by decide

theorem State.atReset_reset : State.reset.AtReset := by
  simp only [State.AtReset, State.status_reset]
  decide

/-- What a reset edge keeps of the state before it is no register of the block, so `AtReset` does not see it. -/
theorem State.atReset_resetEdge_iff (s : State) : s.resetEdge.AtReset ↔ State.reset.AtReset := Iff.rfl

/-- Settles O9: the registers after a reset edge are those of the reset state, whatever the edge found. -/
theorem resetRegisters : Obligations.ResetRegisters := by
  unfold Obligations.ResetRegisters
  refine ⟨State.atReset_reset, fun s hrst => ⟨s.resetEdge, step_of_rst hrst, ?_⟩⟩
  exact s.atReset_resetEdge_iff.mpr State.atReset_reset

end Sys2Proof.Machine
end

section
/-! The byte of DISPLAY (30_encoding.md R95). -/

namespace Sys2Proof.Machine

/-- With bit 0 set the display and the cursor are on and blink is off (30_encoding.md R95). -/
theorem displayByte_of_bit_zero_set {a : Byte} (h : a.getLsbD 0 = true) : displayByte a = 0x0E#8 := by
  rw [displayByte, if_pos h]

/-- With bit 0 clear the display is off (30_encoding.md R95). -/
theorem displayByte_of_bit_zero_clear {a : Byte} (h : a.getLsbD 0 = false) : displayByte a = 0x08#8 := by
  rw [displayByte, if_neg (Bool.eq_false_iff.mp h)]

/-- INIT ends by turning the display on, with the byte that DISPLAY sends for its on value. -/
theorem getLast?_initBytes : initBytes.getLast? = some 0x0E#8 := rfl

/-- Settles O8: one lemma for each value of bit 0, and the last byte of INIT. -/
theorem displayByteDependsOnBitZero : Obligations.DisplayByteDependsOnBitZero := by
  unfold Obligations.DisplayByteDependsOnBitZero
  exact ⟨fun _ => ⟨displayByte_of_bit_zero_set, displayByte_of_bit_zero_clear⟩, getLast?_initBytes⟩

end Sys2Proof.Machine
end

section
/-! The digits of write-number (45_host_sequences.md R192). -/

namespace Sys2Proof.Machine

theorem digitsOf_zero (m : Nat) : digitsOf 0 m = [m % 10] := rfl

theorem digitsOf_succ_of_lt {k m : Nat} (h : m < 10) : digitsOf (k + 1) m = [m] := by
  rw [digitsOf, if_pos h]

theorem digitsOf_succ_of_not_lt {k m : Nat} (h : ¬ m < 10) :
    digitsOf (k + 1) m = digitsOf k (m / 10) ++ [m % 10] := by
  rw [digitsOf, if_neg h]

theorem le_nine_of_mem_digitsOf {k m d : Nat} (hd : d ∈ digitsOf k m) : d ≤ 9 := by
  induction k, m using digitsOf.induct with
  | case1 m =>
    rw [digitsOf_zero, List.mem_singleton] at hd
    omega
  | case2 k m h =>
    rw [digitsOf_succ_of_lt h, List.mem_singleton] at hd
    omega
  | case3 k m h ih =>
    rw [digitsOf_succ_of_not_lt h, List.mem_append, List.mem_singleton] at hd
    obtain hd | rfl := hd
    · exact ih hd
    · omega

theorem length_digitsOf_le (k m : Nat) : (digitsOf k m).length ≤ k + 1 := by
  induction k, m using digitsOf.induct with
  | case1 m => simp [digitsOf_zero]
  | case2 k m h => simp [digitsOf_succ_of_lt h]
  | case3 k m h ih => simpa [digitsOf_succ_of_not_lt h] using ih

theorem digitsOf_ne_nil (k m : Nat) : digitsOf k m ≠ [] := by
  induction k, m using digitsOf.induct with
  | case1 m => simp [digitsOf_zero]
  | case2 k m h => simp [digitsOf_succ_of_lt h]
  | case3 k m h ih => simp [digitsOf_succ_of_not_lt h]

theorem div_ten_lt {k m : Nat} (hm : m < 10 ^ (k + 1 + 1)) : m / 10 < 10 ^ (k + 1) :=
  Nat.div_lt_of_lt_mul (by rwa [← Nat.pow_succ'])

/-- Read from the left in base 10, the digits give back a number that fits in `k + 1` of them. -/
theorem foldl_digitsOf {k m : Nat} (hm : m < 10 ^ (k + 1)) :
    (digitsOf k m).foldl (fun n d => 10 * n + d) 0 = m := by
  induction k, m using digitsOf.induct with
  | case1 m => simpa [digitsOf_zero] using hm
  | case2 k m h => simp [digitsOf_succ_of_lt h]
  | case3 k m h ih =>
    rw [digitsOf_succ_of_not_lt h, List.foldl_append, ih (div_ten_lt hm)]
    exact Nat.div_add_mod m 10

/-- No leading zero: a digit is appended only to the digits of `m / 10` with `10 ≤ m`, which are not `[0]` because their
value is not 0. -/
theorem digitsOf_eq_zero_of_head? {k m : Nat} (hm : m < 10 ^ (k + 1)) (h0 : (digitsOf k m).head? = some 0) :
    digitsOf k m = [0] := by
  induction k, m using digitsOf.induct with
  | case1 m => simpa [digitsOf_zero] using h0
  | case2 k m h => simpa [digitsOf_succ_of_lt h] using h0
  | case3 k m h ih =>
    have hq := div_ten_lt hm
    rw [digitsOf_succ_of_not_lt h, List.head?_append_of_ne_nil _ (digitsOf_ne_nil k _)] at h0
    have hval := foldl_digitsOf hq
    rw [ih hq h0, List.foldl_cons, List.foldl_nil] at hval
    omega

/-- `|v|` has at most 5 digits (45_host_sequences.md R192). -/
theorem magnitude_lt (v : BitVec 16) : magnitude v < 10 ^ 5 := by
  have hlo := v.le_toInt
  have hhi := v.toInt_lt
  rw [magnitude]
  omega

/-- Settles O50: the digits are those of `|v|`, and one lemma about `digitsOf` gives each clause. -/
theorem decimalTextIsCanonical : Obligations.DecimalTextIsCanonical := by
  unfold Obligations.DecimalTextIsCanonical
  intro v
  have hm := magnitude_lt v
  exact ⟨digitsOf 4 (magnitude v), rfl, fun _ => le_nine_of_mem_digitsOf, foldl_digitsOf hm,
    digitsOf_eq_zero_of_head? hm, List.length_pos_iff.mpr (digitsOf_ne_nil 4 _), length_digitsOf_le 4 _⟩

end Sys2Proof.Machine
end

section
/-! The fault flags along an edge (60_exceptions.md R206): a step's writes, a move along a step list and the end of DECODE
each keep every flag that is set, so every edge without a reset does. -/

namespace Sys2Proof.Machine

/-- Every fault flag that is set in the first state is set in the second (60_exceptions.md R206). -/
def State.KeepsFaults (s t : State) : Prop :=
  (s.err_illegal = true → t.err_illegal = true) ∧ (s.err_noinit = true → t.err_noinit = true) ∧
  (s.err_timeout = true → t.err_timeout = true)

theorem State.KeepsFaults.refl (s : State) : s.KeepsFaults s := ⟨id, id, id⟩

theorem State.keepsFaults_apply (s : State) (x : Step) : s.KeepsFaults (s.apply x) := by
  obtain ⟨hillegal, hnoinit, -, -, -⟩ := s.apply_flags x
  exact ⟨hillegal.trans, hnoinit.trans, fun h => (s.apply_err_timeout x).mpr (.inl h)⟩

theorem State.keepsFaults_raiseFault (s : State) (f : FaultFlag) : s.KeepsFaults (s.raiseFault f) := by
  unfold State.raiseFault
  refine ⟨fun h => ?_, fun h => ?_, fun h => ?_⟩ <;> simp [h]

theorem State.MovesTo.keepsFaults {s t : State} (h : s.MovesTo t) : s.KeepsFaults t := by
  cases h with
  | enter x rest _ => exact s.keepsFaults_apply x
  | finish => exact .refl s
  | ready => exact .refl s

theorem State.Decodes.keepsFaults {s t : State} {i : Instr} (h : s.Decodes i t) : s.KeepsFaults t := by
  cases h with
  | illegal _ _ => exact s.keepsFaults_raiseFault .illegal
  | noinit _ _ _ => exact s.keepsFaults_raiseFault .noinit
  | cfg _ _ rest => exact s.keepsFaults_apply .cfg
  | select _ b rs rest _ _ => exact s.keepsFaults_apply (.select rs b)

/-- What an edge without a reset writes itself, beside a step's writes and a fault raised in DECODE, is the position, the
command word, the delay counter and the host's moves: no fault flag. -/
theorem State.Edge.keepsFaults {s t : State} (h : s.Edge t) (hrst : s.rst = false) : s.KeepsFaults t := by
  cases h with
  | reset hr => exact absurd hr (Bool.eq_false_iff.mp hrst)
  | accept _ _ _ _ => exact .refl s
  | stay _ _ _ => exact .refl s
  | decode _ _ _ hd => exact hd.keepsFaults
  | wait _ _ _ _ _ => exact .refl s
  | move _ rest c _ _ _ => exact (State.proceed_moves { s.hostTick with cnt := c } rest).keepsFaults

/-- Settles O43: without a reset by the cases of an edge, and a reset edge gives each flag its reset value. -/
theorem faultFlagsAreSticky : Obligations.FaultFlagsAreSticky := by
  unfold Obligations.FaultFlagsAreSticky
  intro s t h
  refine ⟨(step_cases h).keepsFaults, fun hrst => ?_⟩
  obtain rfl : s.resetEdge = t := by simpa [step_of_rst hrst] using h
  exact ⟨rfl, rfl, rfl⟩

end Sys2Proof.Machine
end

section
/-! The faults of DECODE (60_exceptions.md R201 to R203): the opcode of a word tells the commands that raise one. -/

namespace Sys2Proof

theorem op_ofFields (op : BitVec 3) (arg1 arg0 : Byte) : (ofFields op arg1 arg0).op = op := by
  unfold ofFields
  split_ifs
  case neg => simp only [Instr.op]; bv_omega
  all_goals exact Eq.symm ‹_›

@[simp] theorem op_decode (w : CmdWord) : (decode w).op = opField w := op_ofFields ..

/-- The byte commands are all but INIT and the reserved one (30_encoding.md R92). -/
theorem byteSent_eq_none_iff (i : Instr) : i.byteSent = none ↔ i.op = 0b000#3 ∨ i.op = 0b111#3 := by
  cases i <;> simp [Instr.byteSent, Instr.op]

end Sys2Proof

namespace Sys2Proof.Machine

theorem exec_of_op_reserved {i : Instr} (h : i.op = 0b111#3) (s : State) :
    exec i s = .next (s.raiseFault .illegal) := by
  cases i with
  | reserved _ _ => rfl
  | _ => exact absurd h (by simp [Instr.op])

theorem exec_of_byteSent {i : Instr} {b : Byte} {rs : Bool} (h : i.byteSent = some (b, rs)) (s : State) :
    exec i s = .next (s.byteCommand b rs) := by
  cases i <;> cases h <;> rfl

/-- A byte command is dropped before INIT has completed, whatever byte it would send (60_exceptions.md R203). -/
theorem exec_of_not_init_done {i : Instr} (h : i.byteSent ≠ none) {s : State} (hi : s.init_done = false) :
    exec i s = .next (s.raiseFault .noinit) := by
  obtain ⟨⟨b, rs⟩, hb⟩ := Option.ne_none_iff_exists'.mp h
  rw [exec_of_byteSent hb, State.byteCommand, if_neg (Bool.eq_false_iff.mp hi)]

/-- ERR_ILLEGAL is bit 4 of the status word (10_state.md R40). -/
theorem State.status_getLsbD_four (s : State) : s.status.getLsbD 4 = s.err_illegal := by
  simp only [State.status, BitVec.getLsbD_append]
  simp

/-- ERR_NOINIT is bit 5 of the status word (10_state.md R40). -/
theorem State.status_getLsbD_five (s : State) : s.status.getLsbD 5 = s.err_noinit := by
  simp only [State.status, BitVec.getLsbD_append]
  simp

/-- Settles O16: the opcode alone gives the command its meaning, `raise Fault(ILLEGAL)`. -/
theorem reservedOpcodeRaisesIllegal : Obligations.ReservedOpcodeRaisesIllegal := by
  unfold Obligations.ReservedOpcodeRaisesIllegal
  intro s
  exact ⟨fun _ _ => exec_of_op_reserved rfl s, fun w h => exec_of_op_reserved ((op_decode w).trans h) s,
    State.status_getLsbD_four _⟩

/-- Settles O17: the six byte commands, and the words of their opcodes, are the commands that send a byte. -/
theorem commandsBeforeInitRaiseNoinit : Obligations.CommandsBeforeInitRaiseNoinit := by
  unfold Obligations.CommandsBeforeInitRaiseNoinit
  intro s hi
  have dropped {i : Instr} (h : i.byteSent ≠ none) : exec i s = .next (s.raiseFault .noinit) :=
    exec_of_not_init_done h hi
  refine ⟨fun _ _ => ?_, fun w hinit hreserved => dropped ?_, State.status_getLsbD_five _⟩
  · refine ⟨dropped ?_, dropped ?_, dropped ?_, dropped ?_, dropped ?_, dropped ?_⟩ <;> exact Option.some_ne_none _
  · simp [byteSent_eq_none_iff, hinit, hreserved]

end Sys2Proof.Machine
end

section
/-! The encoding of the commands (30_encoding.md sections 1 and 2): decoding and encoding are inverse, and the opcode
map. -/

namespace Sys2Proof

theorem arg1_ofFields (op : BitVec 3) (arg1 arg0 : Byte) : (ofFields op arg1 arg0).arg1 = arg1 := by
  unfold ofFields
  split_ifs <;> rfl

theorem arg0_ofFields (op : BitVec 3) (arg1 arg0 : Byte) : (ofFields op arg1 arg0).arg0 = arg0 := by
  unfold ofFields
  split_ifs <;> rfl

/-- A command is its opcode with its two fields. -/
theorem ofFields_op_args (i : Instr) : ofFields i.op i.arg1 i.arg0 = i := by
  cases i <;> rfl

theorem encode_ofFields (op : BitVec 3) (arg1 arg0 : Byte) :
    encode (ofFields op arg1 arg0) = op ++ arg1 ++ arg0 := by
  rw [encode, op_ofFields, arg1_ofFields, arg0_ofFields]

theorem decode_encode (i : Instr) : decode (encode i) = i := by
  rw [decode, opField_encode, arg1Field_encode, arg0Field_encode, ofFields_op_args]

theorem encode_decode (w : CmdWord) : encode (decode w) = w := by
  rw [decode, encode_ofFields, cmdWord_fields]

/-- The word `{op, arg1, arg0}` decodes to the command of its fields. -/
theorem decode_append (op : BitVec 3) (arg1 arg0 : Byte) :
    decode (op ++ arg1 ++ arg0) = ofFields op arg1 arg0 := by
  rw [← encode_ofFields, decode_encode]

/-- Settles O1: a word is its three fields, and a command is what its opcode and its fields make. -/
theorem decodeAndEncodeAreInverse : Obligations.DecodeAndEncodeAreInverse := by
  unfold Obligations.DecodeAndEncodeAreInverse
  exact ⟨decode_encode, encode_decode⟩

/-- Settles O2: the fields of the word are the three given, and each of the eight opcodes has its command. -/
theorem opcodeMap : Obligations.OpcodeMap := by
  unfold Obligations.OpcodeMap
  intro op arg1 arg0
  rw [decode_append]
  obtain ⟨k, rfl⟩ : ∃ k : Fin 8, op = BitVec.ofFin k := ⟨op.toFin, rfl⟩
  fin_cases k <;> rfl

/-- Settles O3: each word is evaluated. -/
theorem tableWordsDecode : Obligations.TableWordsDecode := by
  unfold Obligations.TableWordsDecode
  decide

theorem decodeNumber_of_lt {n : Nat} (h : n < 2 ^ 19) : decodeNumber n = .ok (decode (BitVec.ofNat 19 n)) := by
  rw [decodeNumber, if_pos h]

theorem decodeNumber_of_le {n : Nat} (h : 2 ^ 19 ≤ n) : decodeNumber n = .error .tooWide := by
  rw [decodeNumber, if_neg (by omega)]

/-- Settles O4: below `2 ^ 19` the number is the word that its command encodes to. -/
theorem onlyNineteenBitNumbersAreCommands : Obligations.OnlyNineteenBitNumbersAreCommands := by
  unfold Obligations.OnlyNineteenBitNumbersAreCommands
  refine fun n => ⟨fun h => ⟨_, decodeNumber_of_lt h, ?_⟩, decodeNumber_of_le⟩
  rw [encode_decode, BitVec.toNat_ofNat, Nat.mod_eq_of_lt h]

end Sys2Proof
end

section
/-! What an edge does along a step list, said once for the invariants: `exec_fault_or_begins` gives the program that the
edge ending DECODE begins, `step_edge` is every edge by the list it moves along, and `State.proceed_rec` is the
induction that moves on along a list. -/

namespace Sys2Proof.Machine

/-- The step list that the edge ending DECODE begins for a command (30_encoding.md R98). -/
inductive State.Begins (s : State) : Instr → List Item → Prop where
  | init (arg1 arg0 : Byte) : Begins s (.init arg1 arg0) initProgram
  | byte (i : Instr) (b : Byte) (rs : Bool) (h : i.byteSent = some (b, rs)) (hi : s.init_done = true) :
      Begins s i (byteProgram b rs)

/-- Which program a command begins depends on `init_done` alone. -/
theorem State.Begins.congr {s t : State} {i : Instr} {items : List Item} (h : s.Begins i items)
    (hi : t.init_done = s.init_done) : t.Begins i items := by
  cases h with
  | init arg1 arg0 => exact .init arg1 arg0
  | byte i b rs hb hd => exact .byte i b rs hb (hi.trans hd)

/-- Only INIT begins INIT's program, and any other is that of a byte command after an INIT. -/
theorem State.Begins.program {s : State} {i : Instr} {items : List Item} (h : s.Begins i items) :
    (items = initProgram ∧ i.op = 0b000#3) ∨ ∃ b rs, items = byteProgram b rs ∧ s.init_done = true := by
  cases h with
  | init _ _ => exact .inl ⟨rfl, rfl⟩
  | byte i b rs _ hi => exact .inr ⟨b, rs, rfl, hi⟩

/-- The step list that lies ahead of an edge: that of the command in DECODE, or what is left of the running one. -/
inductive State.Ahead (s : State) : List Item → Prop where
  | decode {items : List Item} (hs : s.seq = .decode) (h : s.Begins (decode s.cmd_r) items) : Ahead s items
  | run {x : Step} {rest : List Item} (hs : s.seq = .run x rest) : Ahead s rest

theorem exec_init (arg1 arg0 : Byte) (s : State) : exec (.init arg1 arg0) s = .next (s.proceed initProgram) := rfl

/-- A byte command after INIT begins its program (44_command_api.md R170). -/
theorem exec_byte {i : Instr} {b : Byte} {rs : Bool} (h : i.byteSent = some (b, rs)) {s : State}
    (hi : s.init_done = true) : exec i s = .next (s.proceed (byteProgram b rs)) := by
  rw [exec_of_byteSent h, State.byteCommand, if_pos hi]

/-- INIT is the command of opcode 0b000. -/
theorem eq_init_of_op {i : Instr} (h : i.op = 0b000#3) : i = .init i.arg1 i.arg0 := by
  cases i with
  | init _ _ => rfl
  | _ => exact absurd h (by simp [Instr.op])

/-- The edge that ends DECODE raises a fault or begins a program, and the command and `init_done` alone say which. -/
theorem exec_fault_or_begins (i : Instr) (b : Bool) :
    (∃ f, ∀ s : State, s.init_done = b → exec i s = .next (s.raiseFault f)) ∨
    ∃ items, ∀ s : State, s.init_done = b → s.Begins i items ∧ exec i s = .next (s.proceed items) := by
  cases hb : i.byteSent with
  | none =>
    rcases (byteSent_eq_none_iff i).mp hb with h | h
    · rw [eq_init_of_op h]
      exact .inr ⟨_, fun s _ => ⟨.init _ _, exec_init _ _ s⟩⟩
    · exact .inl ⟨_, fun s _ => exec_of_op_reserved h s⟩
  | some p =>
    cases b with
    | false => exact .inl ⟨_, fun s hi => exec_of_not_init_done (by simp [hb]) hi⟩
    | true => exact .inr ⟨_, fun s hi => ⟨.byte i p.1 p.2 hb hi, exec_byte hb hi⟩⟩

theorem step_of_idle {s : State} (hr : s.rst = false) (hs : s.seq = .idle) : step s = .next s.idleEdge := by
  simp [step, hr, hs]

theorem step_of_decode {s : State} (hr : s.rst = false) (hs : s.seq = .decode) :
    step s = exec (decode s.cmd_r) s.hostTick := by
  simp [step, hr, hs]

/-- Every edge, by what it does with the step list ahead of it. -/
inductive State.ListEdge (s : State) : State → Prop where
  | reset (h : s.rst = true) : ListEdge s s.resetEdge
  | accept (w : CmdWord) (hs : s.seq = .idle) : ListEdge s { s with cmd_r := w, seq := .decode, host := s.host.tail }
  | stay (hs : s.seq = .idle) : ListEdge s s.hostTick
  | fault (f : FaultFlag) (hs : s.seq = .decode) : ListEdge s (s.hostTick.raiseFault f)
  | wait (d : Delay) (rest : List Item) (hs : s.seq = .run (.wait d) rest) :
      ListEdge s { s.hostTick with cnt := s.cnt - 1 }
  | along (items : List Item) (c : Nat) (h : s.Ahead items) (hc : c = s.cnt ∨ c = 0) :
      ListEdge s ({ s.hostTick with cnt := c }.proceed items)

theorem step_edge {s t : State} (h : step s = .next t) : s.ListEdge t := by
  cases step_cases h with
  | reset hr => exact .reset hr
  | accept w _ hs _ => exact .accept w hs
  | stay _ hs _ => exact .stay hs
  | wait d rest _ hs _ => exact .wait d rest hs
  | move x rest c _ hs hc => exact .along rest c (.run hs) hc
  | decode t hr hs _ =>
    rw [step_of_decode hr hs] at h
    rcases exec_fault_or_begins (decode s.cmd_r) s.init_done with ⟨f, hf⟩ | ⟨items, hb⟩
    · cases (hf s.hostTick rfl).symm.trans h
      exact .fault f hs
    · obtain ⟨hb, hp⟩ := hb s.hostTick rfl
      cases hp.symm.trans h
      exact .along items s.cnt (.decode hs (hb.congr rfl)) (.inl rfl)

theorem State.skips_iff (s : State) (x : Step) : s.skips x = true ↔ ∃ d, x = .wait d ∧ s.delay d = 0 := by
  cases x <;> simp [State.skips]

/-- The limit reached is what makes a poll the last one of a wait that times out (43_busy_wait.md R156). -/
theorem State.pollResult_eq_timeout_iff {s : State} : s.pollResult = some .timeout ↔ s.LimitReached := by
  unfold State.pollResult State.LimitReached
  split_ifs <;> simp_all

/-- Another poll follows one that sampled 1 below the limit (43_busy_wait.md R155, R156). -/
theorem State.pollResult_eq_none_iff {s : State} :
    s.pollResult = none ↔ s.busy_r = true ∧ (s.params.pollLimit ≠ 0 → s.polls ≠ s.params.pollLimit) := by
  unfold State.pollResult
  split_ifs <;> simp_all

/-- Moving on keeps what is said of the list at each entry that takes no cycle, up to the step that is entered or the
end of the command: waits of 0 cycles are passed over, and the test of a poll puts the exit of the wait or another poll
before the rest of the list. -/
theorem State.proceed_rec {s : State} {R : List Item → Prop} {P : State → Prop}
    (finish : R [] → P s.finish)
    (ready : ∀ rest, R (.ready :: rest) → P { s with init_done := true }.finish)
    (skip : ∀ d rest, s.delay d = 0 → R (.step (.wait d) :: rest) → R rest)
    (enter : ∀ x rest, s.skips x = false → R (.step x :: rest) → P (s.enter x rest))
    (ok : ∀ a rest, R (.pollTest a :: rest) → s.pollResult = some .ok → R (steps (waitExit .ok) ++ rest))
    (timeout : ∀ a rest, R (.pollTest a :: rest) → s.pollResult = some .timeout →
      R (steps (waitExit .timeout) ++ a.rest rest))
    (again : ∀ a rest, R (.pollTest a :: rest) → s.pollResult = none → R (steps poll ++ .pollTest a :: rest))
    (items : List Item) (h : R items) : P (s.proceed items) := by
  have begins (xs : List Step) (rest : List Item) (hx : ∃ x ∈ xs, s.skips x = false) (hr : R (steps xs ++ rest)) :
      P (s.begin rest xs) := by
    induction xs with
    | nil => simp at hx
    | cons x xs ih =>
      simp only [State.begin]
      split
      case isTrue hsk =>
        obtain ⟨d, rfl, hd⟩ := (s.skips_iff x).mp hsk
        obtain ⟨y, hy, hys⟩ := hx
        rcases List.mem_cons.mp hy with rfl | hy
        · exact absurd hsk (Bool.eq_false_iff.mp hys)
        · exact ih ⟨y, hy, hys⟩ (skip d _ hd hr)
      case isFalse hsk => exact enter x _ (Bool.eq_false_iff.mpr hsk) hr
  induction items with
  | nil => exact finish h
  | cons i rest ih =>
    match i with
    | .ready => exact ready rest h
    | .step x =>
      simp only [State.proceed]
      split
      case isTrue hsk =>
        obtain ⟨d, rfl, hd⟩ := (s.skips_iff x).mp hsk
        exact ih (skip d rest hd h)
      case isFalse hsk => exact enter x rest (Bool.eq_false_iff.mpr hsk) h
    | .pollTest a =>
      simp only [State.proceed]
      split
      case h_1 hp => exact begins _ _ ⟨.dirOut .ok, by simp [waitExit], rfl⟩ (ok a rest h hp)
      case h_2 hp => exact begins _ _ ⟨.dirOut .timeout, by simp [waitExit], rfl⟩ (timeout a rest h hp)
      case h_3 hp => exact begins _ _ ⟨.enable true, by simp [poll], rfl⟩ (again a rest h hp)

end Sys2Proof.Machine
end

section
/-! The discipline of the bus lines along an edge (20_memory.md R61, 10_state.md R27, R41; 70_reset_and_hazards.md R240,
R241). -/

namespace Sys2Proof.Machine

/-! ## Moving on with the discipline -/

/-- What moving on can do with the discipline: enter a step that the lines allow, with the rest kept, or end the command
with the lines ready for a write. -/
inductive State.DisciplinedMove (s : State) : State → Prop where
  | enter (x : Step) (rest : List Item) (ha : s.lines.allows x = true) (hk : (s.lines.after x).keeps rest = true) :
      DisciplinedMove s (s.enter x rest)
  | done (b : Bool) (hw : s.lines.writing = true) : DisciplinedMove s { s with init_done := b }.finish

theorem Lines.keeps_step {l : Lines} {x : Step} {rest : List Item} :
    l.keeps (.step x :: rest) = true ↔ l.allows x = true ∧ (l.after x).keeps rest = true := by
  simp [Lines.keeps]

theorem Lines.keeps_pollTest {l : Lines} {a : OnTimeout} {rest : List Item} :
    l.keeps (.pollTest a :: rest) = true ↔ l.polling = true ∧ Lines.afterWait.keeps rest = true := by
  simp [Lines.keeps]

/-- The lines of a poll (43_busy_wait.md R152). -/
def Lines.inPoll : Lines :=
  { ctl_oe := true, rs := false, rw := true, e := false, d_oe := false, d_pu := true, dir := .inp }

theorem Lines.polling_iff {l : Lines} : l.polling = true ↔ l = .inPoll := by
  cases l
  simp [Lines.polling, Lines.inPoll]
  tauto

theorem Lines.writing_iff {l : Lines} : l.writing = true ↔ ∃ rs, l = { Lines.afterWait with rs := rs } := by
  cases l
  simp [Lines.writing, Lines.afterWait]
  tauto

/-- The exit of a wait leads from the lines of a poll to those of a write (43_busy_wait.md R157). -/
theorem Lines.keeps_waitExit {rest : List Item} (r : WaitResult) (h : Lines.afterWait.keeps rest = true) :
    Lines.inPoll.keeps (steps (waitExit r) ++ rest) = true := h

/-- A poll leaves the lines as they were, ready for its test (43_busy_wait.md R151). -/
theorem Lines.keeps_poll {a : OnTimeout} {rest : List Item} (h : Lines.afterWait.keeps rest = true) :
    Lines.inPoll.keeps (steps poll ++ .pollTest a :: rest) = true := h

theorem State.proceed_disciplined {s : State} {items : List Item} (h : s.lines.keeps items = true) :
    s.DisciplinedMove (s.proceed items) := by
  have exit {a : OnTimeout} {rest : List Item} (hk : s.lines.keeps (.pollTest a :: rest) = true) :
      s.lines = .inPoll ∧ Lines.afterWait.keeps rest = true :=
    (Lines.keeps_pollTest.mp hk).imp_left Lines.polling_iff.mp
  refine State.proceed_rec (R := fun items => s.lines.keeps items = true)
    ?finish ?ready ?skip ?enter ?ok ?timeout ?again items h
  case finish => exact .done s.init_done
  case ready => exact fun _ => .done true
  case skip => exact fun d rest _ hk => (Lines.keeps_step.mp hk).2
  case enter => exact fun x rest _ hk => .enter x rest (Lines.keeps_step.mp hk).1 (Lines.keeps_step.mp hk).2
  case ok =>
    intro a rest hk _
    obtain ⟨hl, hrest⟩ := exit hk
    exact hl ▸ Lines.keeps_waitExit .ok hrest
  case timeout =>
    intro a rest hk _
    obtain ⟨hl, hrest⟩ := exit hk
    cases a with
    | carryOn => exact hl ▸ Lines.keeps_waitExit .timeout hrest
    | abort => exact hl ▸ Lines.keeps_waitExit .timeout rfl
  case again =>
    intro a rest hk _
    obtain ⟨hl, hrest⟩ := exit hk
    exact hl ▸ Lines.keeps_poll hrest

/-! ## The output enables, the direction and RW -/

/-- The direction is the one the output enables say, and the block does not drive the data lines while it reads
(10_state.md R27; 70_reset_and_hazards.md R241). -/
structure Lines.Consistent (l : Lines) : Prop where
  ctl : l.ctl_oe = true ↔ l.dir ≠ .unconf
  oe : l.d_oe = true ↔ l.dir = .out
  pu : l.d_pu = true ↔ l.dir = .inp
  noContention : l.d_oe = true → l.rw = false

theorem State.LineInv.consistent {s : State} (h : s.LineInv) : s.lines.Consistent := ⟨h.ctl, h.oe, h.pu, h.noContention⟩

theorem Lines.after_configured {l : Lines} {x : Step} (hd : l.dir ≠ .unconf) : (l.after x).dir ≠ .unconf := by
  cases x with
  | cfg | dirIn | dirOut _ => exact Dir.noConfusion
  | _ => exact hd

/-- A step that the lines allow, of configured lines, keeps the direction and the output enables together. -/
theorem Lines.Consistent.after {l : Lines} {x : Step} (h : l.Consistent) (hd : x = .cfg ∨ l.dir ≠ .unconf)
    (ha : l.allows x = true) : (l.after x).Consistent := by
  obtain ⟨ctl, oe, pu, noContention⟩ := h
  cases x with
  | select _ _ | drive _ | wait _ | enable _ | selectInstr | sample => exact ⟨ctl, oe, pu, noContention⟩
  | cfg => exact ⟨by simp [Lines.after], by simp [Lines.after], by simp [Lines.after], by simp [Lines.after]⟩
  | dirIn =>
    obtain ⟨rs, rfl⟩ := Lines.writing_iff.mp ha
    exact ⟨by simp [Lines.after, Lines.afterWait], by simp [Lines.after], by simp [Lines.after], by simp [Lines.after]⟩
  | readWrite v =>
    have hoe : l.d_oe = false := by cases v <;> simp_all [Lines.allows]
    exact ⟨ctl, oe, pu, fun h => absurd h (Bool.eq_false_iff.mp hoe)⟩
  | dirOut _ =>
    have hrw : l.rw = false := by simp_all [Lines.allows]
    have hctl : l.ctl_oe = true := ctl.mpr (hd.resolve_left Step.noConfusion)
    exact ⟨by simp [Lines.after, hctl], by simp [Lines.after], by simp [Lines.after], fun _ => hrw⟩

/-! ## The programs -/

/-- With E = 0 INIT keeps the discipline from any lines, which `CFG` sets itself (40_init_sequence.md R112). -/
theorem Lines.keeps_initProgram {l : Lines} (h : l.e = false) : l.keeps initProgram = true :=
  Lines.keeps_step.mpr ⟨by simp [Lines.allows, h], rfl⟩

/-- A byte command keeps the discipline from the lines of a write (41_byte_transfer.md R134). -/
theorem Lines.keeps_byteProgram {l : Lines} (b : Byte) (rs : Bool) (h : l.writing = true) :
    l.keeps (byteProgram b rs) = true := by
  refine Lines.keeps_step.mpr ⟨h, ?_⟩
  obtain ⟨_, rfl⟩ := Lines.writing_iff.mp h
  cases rs <;> rfl

/-- In IDLE and in DECODE after an INIT the lines are those of a write. -/
theorem State.LineInv.writing {s : State} (h : s.LineInv) (hs : s.seq = .idle ∨ s.seq = .decode)
    (hi : s.init_done = true) : s.lines.writing = true := by
  obtain ⟨he, hrw, -, hout⟩ := h.idle hs
  have hd := hout hi
  have hctl : s.ctl_oe = true := h.ctl.mpr (by simp [hd])
  have hoe : s.d_oe = true := h.oe.mpr hd
  have hpu : s.d_pu = false := Bool.eq_false_iff.mpr fun hp => absurd (h.pu.mp hp) (by simp [hd])
  simp [Lines.writing, State.lines, hctl, hoe, hpu, hd, he, hrw]

/-- The list ahead of an edge keeps the discipline, and it begins with `CFG` where the lines are not configured. -/
theorem State.LineInv.keeps_ahead {s : State} (h : s.LineInv) {items : List Item} (ha : s.Ahead items) :
    s.lines.keeps items = true ∧ (items = initProgram ∨ s.dir ≠ .unconf) := by
  cases ha with
  | run hs =>
    obtain ⟨hd, hk⟩ := h.run _ _ hs
    exact ⟨hk, .inr hd⟩
  | decode hs hb =>
    obtain ⟨he, -, -, hout⟩ := h.idle (.inr hs)
    rcases hb.program with ⟨rfl, -⟩ | ⟨b, rs, rfl, hi⟩
    · exact ⟨Lines.keeps_initProgram he, .inl rfl⟩
    · exact ⟨Lines.keeps_byteProgram b rs (h.writing (.inr hs) hi), .inr (by simp [hout hi])⟩

/-! ## Every edge -/

theorem State.lineInv_reset : State.reset.LineInv where
  ctl := by decide
  oe := by decide
  pu := by decide
  noContention := by decide
  idle := by decide
  run := fun _ _ h => Seq.noConfusion h

/-- The invariant outside a list is about the lines and `init_done`. -/
theorem State.LineInv.outside {s t : State} (h : s.LineInv) (hs : s.seq = .idle ∨ s.seq = .decode)
    (ht : t.seq = .idle ∨ t.seq = .decode) (hl : t.lines = s.lines) (hi : t.init_done = s.init_done) : t.LineInv := by
  obtain ⟨hctl, hoe, hpu, hno⟩ := hl ▸ h.consistent
  have he : t.e_o = s.e_o := congrArg Lines.e hl
  have hrw : t.rw_o = s.rw_o := congrArg Lines.rw hl
  have hd : t.dir = s.dir := congrArg Lines.dir hl
  refine ⟨hctl, hoe, hpu, hno, fun _ => ?_, fun x rest hx => ?_⟩
  · rw [he, hrw, hd, hi]
    exact h.idle hs
  · simp [hx] at ht

theorem State.enter_lines (s : State) (x : Step) (rest : List Item) : (s.enter x rest).lines = s.lines.after x :=
  s.lines_apply x

theorem State.lineInv_enter {s : State} {x : Step} {rest : List Item} (hc : s.lines.Consistent)
    (hd : x = .cfg ∨ s.dir ≠ .unconf) (ha : s.lines.allows x = true) (hk : (s.lines.after x).keeps rest = true) :
    (s.enter x rest).LineInv := by
  have hl := s.enter_lines x rest
  obtain ⟨hctl, hoe, hpu, hno⟩ := hl ▸ hc.after hd ha
  have hdir : (s.lines.after x).dir ≠ .unconf := by
    rcases hd with rfl | hd
    · exact Dir.noConfusion
    · exact Lines.after_configured hd
  refine ⟨hctl, hoe, hpu, hno, fun hs => by simp at hs, fun y after hs => ?_⟩
  obtain ⟨rfl, rfl⟩ : x = y ∧ rest = after := by simpa using hs
  exact ⟨(congrArg Lines.dir hl).trans_ne hdir, hl ▸ hk⟩

theorem State.lineInv_finish {s : State} (hc : s.lines.Consistent) (hw : s.lines.writing = true) (b : Bool) :
    ({ s with init_done := b } : State).finish.LineInv := by
  obtain ⟨hctl, hoe, hpu, hno⟩ := hc
  obtain ⟨rs, hl⟩ := Lines.writing_iff.mp hw
  have he : s.e_o = false := congrArg Lines.e hl
  have hrw : s.rw_o = false := congrArg Lines.rw hl
  have hd : s.dir = .out := congrArg Lines.dir hl
  exact ⟨hctl, hoe, hpu, hno, fun _ => ⟨he, hrw, by simp [hd], fun _ => hd⟩, fun _ _ hs => by simp at hs⟩

theorem State.lineInv_proceed {s : State} {items : List Item} (hc : s.lines.Consistent)
    (hk : s.lines.keeps items = true) (hd : items = initProgram ∨ s.dir ≠ .unconf) : (s.proceed items).LineInv := by
  rcases hd with rfl | hd
  · obtain ⟨ha, hk⟩ := Lines.keeps_step.mp hk
    exact State.lineInv_enter hc (.inl rfl) ha hk
  · have hm := State.proceed_disciplined hk
    generalize s.proceed items = t at hm ⊢
    cases hm with
    | enter x rest ha hk => exact State.lineInv_enter hc (.inr hd) ha hk
    | done b hw => exact State.lineInv_finish hc hw b

/-- Settles O34: the reset state is evaluated. -/
theorem lineInvariantAtReset : Obligations.LineInvariantAtReset := by
  unfold Obligations.LineInvariantAtReset
  exact State.lineInv_reset

/-- Settles O35: an edge that moves along a list moves as the list's discipline says, and no other edge but a reset
writes a line. -/
theorem everyEdgeKeepsTheLineInvariant : Obligations.EveryEdgeKeepsTheLineInvariant := by
  unfold Obligations.EveryEdgeKeepsTheLineInvariant
  intro s t h hst
  cases step_edge hst with
  | reset _ =>
    obtain ⟨hctl, hoe, hpu, hno, hidle, -⟩ := State.lineInv_reset
    exact ⟨hctl, hoe, hpu, hno, hidle, fun _ _ hs => Seq.noConfusion hs⟩
  | accept w hs => exact h.outside (.inl hs) (.inr rfl) rfl rfl
  | stay hs => exact h.outside (.inl hs) (.inl hs) rfl rfl
  | fault f hs => exact h.outside (.inr hs) (.inl rfl) (by cases f <;> rfl) (by cases f <;> rfl)
  | wait d rest hs =>
    obtain ⟨hctl, hoe, hpu, hno, hidle, hrun⟩ := h
    exact ⟨hctl, hoe, hpu, hno, hidle, hrun⟩
  | along items c ha _ =>
    obtain ⟨hk, hd⟩ := h.keeps_ahead ha
    exact State.lineInv_proceed (s := { s.hostTick with cnt := c }) h.consistent hk hd

/-! ## What the discipline says of one edge -/

/-- While E is high the lines allow only a wait, the sampling step and the fall of E (42_enable_pulse.md R141). -/
theorem Lines.allows_of_high {l : Lines} {x : Step} (ha : l.allows x = true) (he : l.e = true) :
    (∃ d, x = .wait d) ∨ x = .sample ∨ x = .enable false := by
  match x with
  | .wait d => exact .inl ⟨d, rfl⟩
  | .sample => exact .inr (.inl rfl)
  | .enable false => exact .inr (.inr rfl)
  | .cfg | .select _ _ | .drive _ | .enable true | .dirIn | .readWrite true | .readWrite false | .selectInstr
  | .dirOut _ => simp [Lines.allows, Lines.writing, he] at ha

theorem State.apply_d_o_of_high {s : State} {x : Step} (ha : s.lines.allows x = true) (he : s.e_o = true) :
    (s.apply x).d_o = s.d_o := by
  rcases Lines.allows_of_high ha he with ⟨_, rfl⟩ | rfl | rfl
  · rfl
  · rfl
  · exact congrArg BusView.d s.busView_fall

/-- With the discipline a step latches the driven nibble exactly when it is a fall of E with RW = 0. -/
theorem State.apply_latched {s : State} {x : Step} (ha : s.lines.allows x = true) :
    (s.apply x).latched =
      if x = .enable false ∧ s.rw_o = false then s.latched ++ [(s.rs_o, s.d_o)] else s.latched := by
  match x with
  | .enable false =>
    obtain ⟨hce, hd⟩ := Bool.and_eq_true_iff.mp ha
    obtain ⟨hc, he⟩ := Bool.and_eq_true_iff.mp hce
    replace hc : s.ctl_oe = true := hc
    replace he : s.e_o = true := he
    cases hw : s.rw_o with
    | true => simp [State.apply, s.fall_driven hc he, hw]
    | false =>
      have hd : s.d_oe = true := by simpa [State.lines, hw] using hd
      simp [State.apply, s.fall_driven hc he, hw, State.dataLines, State.lcdD, hd]
  | .cfg | .select _ _ | .drive _ | .wait _ | .enable true | .dirIn | .readWrite _ | .selectInstr | .sample
  | .dirOut .ok | .dirOut .timeout => simp [State.apply, State.takeSample]

/-- With the invariant, an edge without a reset leaves the bus as it is or does what one step that the lines allow
does. -/
theorem State.LineInv.edge {s t : State} (h : s.LineInv) (hr : s.rst = false) (hst : step s = .next t) :
    (t.lines = s.lines ∧ t.d_o = s.d_o ∧ t.latched = s.latched) ∨
    ∃ x, s.lines.allows x = true ∧ t.lines = s.lines.after x ∧ (s.e_o = true → t.d_o = s.d_o) ∧
      t.latched = if x = .enable false ∧ s.rw_o = false then s.latched ++ [(s.rs_o, s.d_o)] else s.latched := by
  cases step_edge hst with
  | reset hrst => exact absurd hrst (Bool.eq_false_iff.mp hr)
  | accept _ _ | stay _ | wait _ _ _ => exact .inl ⟨rfl, rfl, rfl⟩
  | fault f _ => exact .inl ⟨by cases f <;> rfl, by cases f <;> rfl, by cases f <;> rfl⟩
  | along items c ha _ =>
    have hm := State.proceed_disciplined (s := { s.hostTick with cnt := c }) (h.keeps_ahead ha).1
    generalize State.proceed _ items = t at hm ⊢
    cases hm with
    | enter x rest ha _ =>
      exact .inr ⟨x, ha, State.enter_lines _ x rest, State.apply_d_o_of_high ha, State.apply_latched ha⟩
    | done b _ => exact .inl ⟨rfl, rfl, rfl⟩

/-- Settles O38: only the step `E=1` raises E, and what it requires of the lines is the two cases. -/
theorem enableRisesOnlyForAWriteOrAStatusRead : Obligations.EnableRisesOnlyForAWriteOrAStatusRead := by
  unfold Obligations.EnableRisesOnlyForAWriteOrAStatusRead
  intro s t h hst he ht
  cases hr : s.rst with
  | true =>
    cases (step_of_rst hr).symm.trans hst
    cases ht
  | false =>
    rcases h.edge hr hst with ⟨hl, -⟩ | ⟨x, ha, hl, -⟩
    · exact absurd ((congrArg Lines.e hl).symm.trans ht) (Bool.eq_false_iff.mp he)
    · have hx : x = .enable true := by
        have hh : (s.lines.after x).e = true := (congrArg Lines.e hl).symm.trans ht
        cases x with
        | enable v => exact congrArg _ hh
        | cfg => cases hh
        | _ => exact absurd hh (Bool.eq_false_iff.mp he)
      subst hx
      have hrs : t.rs_o = s.rs_o := congrArg Lines.rs hl
      have hrw : t.rw_o = s.rw_o := congrArg Lines.rw hl
      have hoe : t.d_oe = s.d_oe := congrArg Lines.d_oe hl
      rw [hrs, hrw, hoe]
      cases hw : s.rw_o <;> simp_all [Lines.allows, State.lines]

/-- Settles O39: the steps allowed with E high write no other line. -/
theorem linesAreStableWhileEnableIsHigh : Obligations.LinesAreStableWhileEnableIsHigh := by
  unfold Obligations.LinesAreStableWhileEnableIsHigh
  intro s t h hr hst he
  have stable (hl : t.lines = { s.lines with e := t.e_o }) (hd : t.d_o = s.d_o) :
      t.rs_o = s.rs_o ∧ t.rw_o = s.rw_o ∧ t.d_o = s.d_o ∧ t.d_oe = s.d_oe ∧ t.d_pu = s.d_pu ∧ t.dir = s.dir :=
    ⟨congrArg Lines.rs hl, congrArg Lines.rw hl, hd, congrArg Lines.d_oe hl, congrArg Lines.d_pu hl,
      congrArg Lines.dir hl⟩
  rcases h.edge hr hst with ⟨hl, hd, -⟩ | ⟨x, ha, hl, hd, -⟩
  · have hte : t.e_o = s.e_o := congrArg Lines.e hl
    exact stable (by rw [hl, hte]; rfl) hd
  · have hte : t.e_o = (s.lines.after x).e := congrArg Lines.e hl
    refine stable ?_ (hd he)
    rcases Lines.allows_of_high ha he with ⟨_, rfl⟩ | rfl | rfl <;> rw [hl, hte] <;> rfl

/-- Settles O40: the fall of E is the step `E=0`, and no other step latches. -/
theorem latchEventsAreTheFallsOfEnable : Obligations.LatchEventsAreTheFallsOfEnable := by
  unfold Obligations.LatchEventsAreTheFallsOfEnable
  intro s t h hr hst
  rcases h.edge hr hst with ⟨hl, -, hlat⟩ | ⟨x, ha, hl, -, hlat⟩
  · have hte : t.e_o = s.e_o := congrArg Lines.e hl
    rw [hlat, if_neg]
    rintro ⟨he, hf, -⟩
    simp [hte, he] at hf
  · have hte : t.e_o = (s.lines.after x).e := congrArg Lines.e hl
    have falls : x = .enable false ↔ s.e_o = true ∧ t.e_o = false := by
      rw [hte]
      refine ⟨?_, fun ⟨he, hf⟩ => ?_⟩
      · rintro rfl
        exact ⟨by simp_all [Lines.allows, State.lines], rfl⟩
      · rcases Lines.allows_of_high ha he with ⟨_, rfl⟩ | rfl | rfl
        · exact absurd he (Bool.eq_false_iff.mp hf)
        · exact absurd he (Bool.eq_false_iff.mp hf)
        · rfl
    rw [hlat]
    simp only [falls, and_assoc]

end Sys2Proof.Machine
end

section
/-! The counters along an edge (44_command_api.md R178, 00_scope.md R7). -/

namespace Sys2Proof.Machine

/-! ## The delay counter -/

theorem State.delay_lt (s : State) (hl : s.params.Legal) (d : Delay) : s.delay d < 2 ^ s.params.cntW := by
  obtain ⟨-, -, -, -, -, hsettle, hhold, hpwr, hpor1, hpor2, hpor3, -, -⟩ := hl
  cases d <;> assumption

theorem State.fall_cnt (s : State) : s.fall.cnt = s.cnt := by unfold State.fall; split <;> rfl

theorem State.fall_polls (s : State) : s.fall.polls = s.polls := by unfold State.fall; split <;> rfl

/-- Only a wait writes `cnt` (10_state.md R34). -/
theorem State.apply_cnt (s : State) (x : Step) : (s.apply x).cnt = s.cnt ∨ ∃ d, (s.apply x).cnt = s.delay d := by
  match x with
  | .wait d => exact .inr ⟨d, rfl⟩
  | .enable false => exact .inl s.fall_cnt
  | .cfg | .select _ _ | .drive _ | .enable true | .dirIn | .readWrite _ | .selectInstr | .sample
  | .dirOut .ok | .dirOut .timeout => exact .inl rfl

/-! ## The poll counter -/

/-- `polls` after a step of a block with a limit (43_busy_wait.md R151). -/
def Step.pollsAfter (n : Nat) : Step → Nat
  | .dirIn => 0
  | .sample => n + 1
  | _ => n

theorem State.apply_polls (s : State) (x : Step) :
    (s.apply x).polls = if s.params.pollLimit = 0 then s.polls else x.pollsAfter s.polls := by
  match x with
  | .enable false => exact s.fall_polls.trans (ite_self _).symm
  | .dirIn | .sample => rfl
  | .cfg | .select _ _ | .drive _ | .wait _ | .enable true | .readWrite _ | .selectInstr
  | .dirOut .ok | .dirOut .timeout => exact (ite_self _).symm

theorem pollsFit_step {limit n : Nat} {x : Step} {rest : List Item} (h : pollsFit limit n (.step x :: rest) = true) :
    (n ≤ limit → x.pollsAfter n ≤ limit) ∧ pollsFit limit (x.pollsAfter n) rest = true := by
  cases x with
  | dirIn => exact ⟨fun _ => Nat.zero_le _, h⟩
  | sample =>
    obtain ⟨hn, h⟩ : n < limit ∧ pollsFit limit (n + 1) rest = true := by simpa [pollsFit] using h
    exact ⟨fun _ => hn, h⟩
  | _ => exact ⟨id, h⟩

theorem pollsFit_pollTest {limit n : Nat} {a : OnTimeout} {rest : List Item} :
    pollsFit limit n (.pollTest a :: rest) = true ↔ n ≤ limit ∧ pollsFit limit limit rest = true := by
  simp [pollsFit]

/-- Fewer polls so far fit where more do. -/
theorem pollsFit_mono {limit m n : Nat} {items : List Item} (hmn : m ≤ n) (h : pollsFit limit n items = true) :
    pollsFit limit m items = true := by
  induction items generalizing m n with
  | nil => rfl
  | cons i rest ih =>
    match i with
    | .ready => rfl
    | .pollTest a =>
      obtain ⟨hn, hrest⟩ := pollsFit_pollTest.mp h
      exact pollsFit_pollTest.mpr ⟨hmn.trans hn, hrest⟩
    | .step .dirIn => exact h
    | .step .sample =>
      obtain ⟨hn, hrest⟩ : n < limit ∧ pollsFit limit (n + 1) rest = true := by simpa [pollsFit] using h
      simp [pollsFit, hmn.trans_lt hn, ih (Nat.succ_le_succ hmn) hrest]
    | .step .cfg | .step (.select _ _) | .step (.drive _) | .step (.wait _) | .step (.enable _) | .step (.readWrite _)
    | .step .selectInstr | .step (.dirOut _) => exact ih hmn h

/-- A wait starts its polls at 0, so a program fits from any number of polls on (43_busy_wait.md R152). -/
theorem pollsFit_initProgram {limit : Nat} (h : limit ≠ 0) (n : Nat) : pollsFit limit n initProgram = true := by
  simp [initProgram, probe, nibble, pulse, busyWait, waitEntry, poll, initByte, xfer, steps, pollsFit,
    Nat.pos_of_ne_zero h, Nat.one_le_iff_ne_zero.mpr h]

theorem pollsFit_byteProgram {limit : Nat} (h : limit ≠ 0) (n : Nat) (b : Byte) (rs : Bool) :
    pollsFit limit n (byteProgram b rs) = true := by
  simp [byteProgram, nibble, pulse, busyWait, waitEntry, poll, xfer, steps, pollsFit,
    Nat.pos_of_ne_zero h, Nat.one_le_iff_ne_zero.mpr h]

/-! ## Every edge -/

/-- The invariant without the position: the counters are in their widths. -/
structure State.CountersFit (s : State) : Prop where
  cnt : s.cnt < 2 ^ s.params.cntW
  noPolls : s.params.pollLimit = 0 → s.polls = 0
  polls : s.params.pollLimit ≠ 0 → s.polls ≤ s.params.pollLimit

/-- The polls of a list fit in a block with a limit. -/
def State.PollsFit (s : State) (items : List Item) : Prop :=
  s.params.pollLimit ≠ 0 → pollsFit s.params.pollLimit s.polls items = true

theorem State.CountersFit.inv {s : State} (h : s.CountersFit) (hrun : ∀ x rest, s.seq = .run x rest → s.PollsFit rest) :
    s.CounterInv :=
  ⟨h.cnt, h.noPolls, h.polls, fun hl x rest hs => hrun x rest hs hl⟩

theorem State.CounterInv.fit {s : State} (h : s.CounterInv) : s.CountersFit := ⟨h.cnt, h.noPolls, h.polls⟩

theorem State.CounterInv.pollsFit_ahead {s : State} (h : s.CounterInv) {items : List Item} (ha : s.Ahead items) :
    s.PollsFit items := by
  intro hl
  cases ha with
  | run hs => exact h.run hl _ _ hs
  | decode _ hb =>
    rcases hb.program with ⟨rfl, -⟩ | ⟨b, rs, rfl, -⟩
    · exact pollsFit_initProgram hl _
    · exact pollsFit_byteProgram hl _ b rs

theorem State.counterInv_enter {s : State} {x : Step} {rest : List Item} (hl : s.params.Legal) (hc : s.CountersFit)
    (hp : s.PollsFit (.step x :: rest)) : (s.enter x rest).CounterInv := by
  obtain ⟨hcnt, hno, hpolls⟩ := hc
  refine State.CountersFit.inv ⟨?_, fun h0 => ?_, fun h0 => ?_⟩ fun y after hs h0 => ?_
  · rw [State.enter_cnt, State.enter_params, State.apply_params]
    rcases s.apply_cnt x with h | ⟨d, h⟩ <;> rw [h]
    · exact hcnt
    · exact s.delay_lt hl d
  all_goals rw [State.enter_params, State.apply_params] at h0
  · rw [State.enter_polls, s.apply_polls, if_pos h0, hno h0]
  · rw [State.enter_polls, s.apply_polls, if_neg h0, State.enter_params, State.apply_params]
    exact (pollsFit_step (hp h0)).1 (hpolls h0)
  · obtain ⟨rfl, rfl⟩ : x = y ∧ rest = after := by simpa using hs
    rw [State.enter_polls, s.apply_polls, if_neg h0, State.enter_params, State.apply_params]
    exact (pollsFit_step (hp h0)).2

theorem State.counterInv_proceed {s : State} {items : List Item} (hl : s.params.Legal) (hc : s.CountersFit)
    (hp : s.PollsFit items) : (s.proceed items).CounterInv := by
  have ends {a : OnTimeout} {rest : List Item} (h0 : s.params.pollLimit ≠ 0) (h : s.PollsFit (.pollTest a :: rest)) :
      pollsFit s.params.pollLimit s.polls rest = true :=
    pollsFit_mono (hc.polls h0) (pollsFit_pollTest.mp (h h0)).2
  refine State.proceed_rec (R := s.PollsFit) ?finish ?ready ?skip ?enter ?ok ?timeout ?again items hp
  case finish => exact fun _ => State.CountersFit.inv ⟨hc.cnt, hc.noPolls, hc.polls⟩ fun _ _ hs => Seq.noConfusion hs
  case ready => exact fun _ _ => State.CountersFit.inv ⟨hc.cnt, hc.noPolls, hc.polls⟩ fun _ _ hs =>
    Seq.noConfusion hs
  case skip => exact fun _ _ _ h => h
  case enter => exact fun x rest _ h => State.counterInv_enter hl hc h
  case ok => exact fun a rest h _ h0 => ends (a := a) (rest := rest) h0 h
  case timeout =>
    intro a rest h _ h0
    cases a with
    | carryOn => exact ends (a := .carryOn) (rest := rest) h0 h
    | abort => rfl
  case again =>
    intro a rest h hp h0
    obtain ⟨hle, hrest⟩ := pollsFit_pollTest.mp (h h0)
    have hlt : s.polls < s.params.pollLimit := hle.lt_of_ne ((State.pollResult_eq_none_iff.mp hp).2 h0)
    simpa [poll, pulse, steps, pollsFit, hrest] using hlt

/-- Settles O36: the reset values of the counters are 0. -/
theorem counterInvariantAtReset : Obligations.CounterInvariantAtReset := by
  unfold Obligations.CounterInvariantAtReset
  exact State.CountersFit.inv ⟨Nat.two_pow_pos _, fun _ => rfl, fun _ => Nat.zero_le _⟩ fun _ _ hs => Seq.noConfusion hs

/-- Settles O37: `cnt` is loaded with a delay and counts down, and the list ahead of an edge takes `polls` to the limit
at most. -/
theorem everyEdgeKeepsTheCounterInvariant : Obligations.EveryEdgeKeepsTheCounterInvariant := by
  unfold Obligations.EveryEdgeKeepsTheCounterInvariant
  intro s t hl h hst
  obtain ⟨hcnt, hno, hpolls⟩ := h.fit
  cases step_edge hst with
  | reset _ =>
    exact State.CountersFit.inv ⟨Nat.two_pow_pos _, fun _ => rfl, fun _ => Nat.zero_le _⟩ fun _ _ hs =>
      Seq.noConfusion hs
  | accept _ _ => exact State.CountersFit.inv ⟨hcnt, hno, hpolls⟩ fun _ _ hs => Seq.noConfusion hs
  | stay _ => exact State.CountersFit.inv ⟨hcnt, hno, hpolls⟩ fun _ _ hs hl => h.run hl _ _ hs
  | fault f _ =>
    refine State.CountersFit.inv ?_ fun _ _ hs => Seq.noConfusion hs
    cases f <;> exact ⟨hcnt, hno, hpolls⟩
  | wait _ _ _ =>
    exact State.CountersFit.inv ⟨(Nat.sub_le _ _).trans_lt hcnt, hno, hpolls⟩ fun _ _ hs hl => h.run hl _ _ hs
  | along items c ha hc =>
    have hc : c < 2 ^ s.params.cntW := by
      rcases hc with rfl | rfl
      · exact hcnt
      · exact Nat.two_pow_pos _
    exact State.counterInv_proceed (s := { s.hostTick with cnt := c }) hl ⟨hc, hno, hpolls⟩ (h.pollsFit_ahead ha)

end Sys2Proof.Machine
end

section
/-! How a wait ends with TIMEOUT, along an edge (43_busy_wait.md R156, 60_exceptions.md R204). -/

namespace Sys2Proof.Machine

/-- The last step of a wait that timed out stands in this list only at its exit, and then the wait has reached its
limit. -/
def State.TimeoutAtExit (s : State) (items : List Item) : Prop :=
  noTimeout items ∨ s.LimitReached ∧ ∃ after, noTimeout after ∧
    (items = .step (.dirOut .timeout) :: after ∨ items = steps (waitExit .timeout) ++ after)

theorem noTimeout_cons {i : Item} {items : List Item} :
    noTimeout (i :: items) ↔ i ≠ .step (.dirOut .timeout) ∧ noTimeout items := by
  simp [noTimeout, eq_comm]

theorem noTimeout_append {items items' : List Item} :
    noTimeout (items ++ items') ↔ noTimeout items ∧ noTimeout items' := by
  simp [noTimeout]

theorem noTimeout_initProgram : noTimeout initProgram := by
  unfold noTimeout
  decide

theorem noTimeout_byteProgram (b : Byte) (rs : Bool) : noTimeout (byteProgram b rs) := by
  simp [noTimeout, byteProgram, xfer, nibble, pulse, busyWait, waitEntry, poll, steps]

/-- The step after an exit's steps is entered as `TimeoutInv` says. -/
theorem State.timeoutInv_enter {s : State} {x : Step} {rest : List Item} (h : s.TimeoutAtExit (.step x :: rest)) :
    (s.enter x rest).TimeoutInv := by
  intro y after hs
  obtain ⟨rfl, rfl⟩ : x = y ∧ rest = after := by simpa using hs
  rcases h with h | ⟨hl, after, hafter, h | h⟩
  · obtain ⟨hx, hrest⟩ := noTimeout_cons.mp h
    exact ⟨fun he => absurd (congrArg Item.step he) hx, .inl hrest⟩
  · obtain ⟨rfl, rfl⟩ : x = .dirOut .timeout ∧ rest = after := by simpa using h
    exact ⟨fun _ => hl, .inl hafter⟩
  · obtain ⟨rfl, rfl⟩ : x = .readWrite false ∧ rest = .step (.dirOut .timeout) :: after := by
      simpa [waitExit, steps] using h
    exact ⟨Step.noConfusion, .inr ⟨after, rfl, rfl, hafter, hl⟩⟩

theorem State.timeoutInv_outside {s : State} (h : s.seq = .idle ∨ s.seq = .decode) : s.TimeoutInv :=
  fun _ _ hs => by simp [hs] at h

theorem State.timeoutInv_proceed {s : State} {items : List Item} (h : s.TimeoutAtExit items) :
    (s.proceed items).TimeoutInv := by
  have clear {i : Item} {items : List Item} (hi : ∀ x, i = .step x → ∃ d, x = .wait d)
      (h : s.TimeoutAtExit (i :: items)) : noTimeout items := by
    rcases h with h | ⟨-, after, -, h | h⟩
    · exact (noTimeout_cons.mp h).2
    · obtain ⟨d, hd⟩ := hi _ (List.cons.inj h).1
      cases hd
    · obtain ⟨d, hd⟩ := hi _ (List.cons.inj h).1
      cases hd
  refine State.proceed_rec (R := s.TimeoutAtExit) ?finish ?ready ?skip ?enter ?ok ?timeout ?again items h
  case finish => exact fun _ => State.timeoutInv_outside (.inl rfl)
  case ready => exact fun _ _ => State.timeoutInv_outside (.inl rfl)
  case skip => exact fun d rest _ h => .inl (clear (fun x hx => ⟨d, by cases hx; rfl⟩) h)
  case enter => exact fun x rest _ h => State.timeoutInv_enter h
  case ok =>
    intro a rest h _
    exact .inl (noTimeout_append.mpr ⟨by simp [noTimeout, steps, waitExit], clear (fun _ hx => by cases hx) h⟩)
  case timeout =>
    intro a rest h hp
    refine .inr ⟨State.pollResult_eq_timeout_iff.mp hp, a.rest rest, ?_, .inr rfl⟩
    cases a with
    | carryOn => exact clear (fun _ hx => by cases hx) h
    | abort => simp [noTimeout, OnTimeout.rest]
  case again =>
    intro a rest h _
    refine .inl (noTimeout_append.mpr ⟨by simp [noTimeout, steps, poll, pulse], ?_⟩)
    exact noTimeout_cons.mpr ⟨Item.noConfusion, clear (fun _ hx => by cases hx) h⟩

theorem State.TimeoutInv.ahead {s : State} (h : s.TimeoutInv) {items : List Item} (ha : s.Ahead items) :
    s.TimeoutAtExit items := by
  cases ha with
  | run hs =>
    obtain ⟨-, hrest | ⟨after, rfl, -, hafter, hl⟩⟩ := h _ _ hs
    · exact .inl hrest
    · exact .inr ⟨hl, after, hafter, .inl rfl⟩
  | decode _ hb =>
    rcases hb.program with ⟨rfl, -⟩ | ⟨b, rs, rfl, -⟩
    · exact .inl noTimeout_initProgram
    · exact .inl (noTimeout_byteProgram b rs)

/-- Settles O57: the reset state is in IDLE. -/
theorem timeoutInvariantAtReset : Obligations.TimeoutInvariantAtReset := by
  unfold Obligations.TimeoutInvariantAtReset
  exact State.timeoutInv_outside (.inl rfl)

theorem State.TimeoutInv.step {s t : State} (h : s.TimeoutInv) (hst : step s = .next t) : t.TimeoutInv := by
  cases step_edge hst with
  | reset _ => exact State.timeoutInv_outside (.inl rfl)
  | accept _ _ => exact State.timeoutInv_outside (.inr rfl)
  | stay hs => exact State.timeoutInv_outside (.inl hs)
  | fault _ _ => exact State.timeoutInv_outside (.inl rfl)
  | wait _ _ _ => exact h
  | along items c ha _ => exact State.timeoutInv_proceed (s := { s.hostTick with cnt := c }) (h.ahead ha)

/-- Settles O58: the exit with TIMEOUT is put into a list only by the test of a poll that reached the limit, and its two
steps are entered one after the other. -/
theorem everyEdgeKeepsTheTimeoutInvariant : Obligations.EveryEdgeKeepsTheTimeoutInvariant := by
  unfold Obligations.EveryEdgeKeepsTheTimeoutInvariant
  exact fun _ _ h hst => h.step hst

end Sys2Proof.Machine
end

section
/-! The trace of an edge (20_memory.md R66, R67): the bus event of a step tells what the step does to the lines. -/

namespace Sys2Proof.Machine

/-- From `s` to `t` the trace grows by at most one event, and the lines, the direction and the sample change as it
says. -/
def State.Accounts (s t : State) : Prop :=
  ∃ evs : List Event, evs.length ≤ 1 ∧ t.trace = s.trace ++ evs ∧ t.busView = evs.foldl BusView.after s.busView

theorem State.Accounts.silent {s t : State} (ht : t.trace = s.trace) (hv : t.busView = s.busView) : s.Accounts t :=
  ⟨[], Nat.zero_le 1, by simp [ht], hv⟩

theorem State.Accounts.event {s t : State} (ev : Event) (ht : t.trace = s.trace ++ [ev])
    (hv : t.busView = s.busView.after ev) : s.Accounts t :=
  ⟨[ev], le_refl 1, ht, hv⟩

theorem State.accounts_apply (s : State) (x : Step) : s.Accounts (s.apply x) := by
  match x with
  | .cfg => exact .event .cfg rfl rfl
  | .select rs _ => exact .event (.rs rs) rfl rfl
  | .drive src => exact .event (.d (s.nibbleOf src)) rfl rfl
  | .wait .settle | .wait .hold => exact .silent (List.append_nil _) rfl
  | .wait .pwr => exact .event (.wait s.params.nPwr) rfl rfl
  | .wait .por1 => exact .event (.wait s.params.nPor1) rfl rfl
  | .wait .por2 => exact .event (.wait s.params.nPor2) rfl rfl
  | .wait .por3 => exact .event (.wait s.params.nPor3) rfl rfl
  | .enable true => exact .event (.e true) rfl rfl
  | .enable false => exact .event (.e false) (congrArg (· ++ [Event.e false]) s.fall_trace) s.busView_fall
  | .dirIn => exact .event .dirIn rfl rfl
  | .readWrite v => exact .event (.rw v) rfl rfl
  | .selectInstr => exact .event (.rs false) rfl rfl
  | .sample => exact .event (.smp s.takeSample.busy_r) rfl rfl
  | .dirOut .ok | .dirOut .timeout => exact .event .dirOut rfl rfl

theorem State.accounts_proceed (s : State) (items : List Item) : s.Accounts (s.proceed items) := by
  have hm := s.proceed_moves items
  generalize s.proceed items = t at hm ⊢
  cases hm with
  | enter x rest _ => exact s.accounts_apply x
  | finish => exact .silent rfl rfl
  | ready => exact .silent rfl rfl

/-- Settles O42: an edge that moves along a list has the event of the step it enters, and no other edge has one. -/
theorem traceAccountsForTheLines : Obligations.TraceAccountsForTheLines := by
  unfold Obligations.TraceAccountsForTheLines
  intro s t hr hst
  cases step_edge hst with
  | reset hrst => exact absurd hrst (Bool.eq_false_iff.mp hr)
  | accept _ _ | stay _ | wait _ _ _ => exact State.Accounts.silent rfl rfl
  | fault f _ => exact State.Accounts.silent (by cases f <;> rfl) (by cases f <;> rfl)
  | along items c _ _ => exact State.accounts_proceed { s.hostTick with cnt := c } items

end Sys2Proof.Machine
end

section
/-! What an edge without a reset does to the fault flags, `init_done` and the registers it keeps (10_state.md R25, R26,
R33, R38, R40; 60_exceptions.md R202 to R204). -/

namespace Sys2Proof.Machine

/-! ## The fault flags -/

/-- ILLEGAL and NOINIT are set from `s` to `t` exactly by these causes, and TIMEOUT exactly by the last step of a wait
that timed out. -/
structure State.FlagsGain (s t : State) (illegal noinit : Bool) : Prop where
  illegal : t.err_illegal = (s.err_illegal || illegal)
  noinit : t.err_noinit = (s.err_noinit || noinit)
  timeout : t.err_timeout = true ↔ s.err_timeout = true ∨ ∃ rest, t.seq = .run (.dirOut .timeout) rest

theorem State.FlagsGain.enter (s : State) (x : Step) (rest : List Item) : s.FlagsGain (s.enter x rest) false false := by
  obtain ⟨hillegal, hnoinit, -⟩ := s.apply_flags x
  exact ⟨by simp [hillegal], by simp [hnoinit], (s.apply_err_timeout x).trans (by simp)⟩

/-- The flags that are kept, in a position that is not the last step of a wait that timed out. -/
theorem State.FlagsGain.kept {s t : State} (hi : t.err_illegal = s.err_illegal) (hn : t.err_noinit = s.err_noinit)
    (ht : t.err_timeout = s.err_timeout) (hq : ∀ rest, t.seq ≠ .run (.dirOut .timeout) rest) :
    s.FlagsGain t false false :=
  ⟨by simp [hi], by simp [hn], by simp [ht, hq]⟩

theorem State.MovesTo.flagsGain {s t : State} (h : s.MovesTo t) : s.FlagsGain t false false := by
  cases h with
  | enter x rest _ => exact .enter s x rest
  | finish => exact .kept rfl rfl rfl (by simp)
  | ready => exact .kept rfl rfl rfl (by simp)

/-- In DECODE the reserved opcode sets ILLEGAL, and any other but INIT's sets NOINIT before an INIT. -/
theorem State.Decodes.flagsGain {s t : State} {i : Instr} (h : s.Decodes i t) :
    s.FlagsGain t (i.op == 0b111#3) (i.op != 0b111#3 && i.op != 0b000#3 && !s.init_done) := by
  cases h with
  | illegal _ _ => exact ⟨by simp [State.raiseFault, Instr.op], by simp [State.raiseFault, Instr.op],
      by simp [State.raiseFault]⟩
  | noinit _ hb hi =>
    obtain ⟨h0, h7⟩ := not_or.mp (mt (byteSent_eq_none_iff i).mpr hb)
    have hillegal : (FaultFlag.noinit == FaultFlag.illegal) = false := rfl
    have htimeout : (FaultFlag.noinit == FaultFlag.timeout) = false := rfl
    exact ⟨by simp [State.raiseFault, beq_eq_false_iff_ne.mpr h7, hillegal],
      by simp [State.raiseFault, bne_iff_ne.mpr h7, bne_iff_ne.mpr h0, hi], by simp [State.raiseFault, htimeout]⟩
  | cfg _ _ rest => exact .enter s .cfg rest
  | select _ b rs rest hb hi =>
    obtain ⟨-, h7⟩ := not_or.mp (mt (byteSent_eq_none_iff i).mpr (by simp [hb]))
    rw [beq_eq_false_iff_ne.mpr h7, hi, Bool.not_true, Bool.and_false]
    exact .enter s (.select rs b) rest

theorem step_flagsGain {s t : State} (hr : s.rst = false) (hst : step s = .next t) :
    s.FlagsGain t (s.seq == .decode && opField s.cmd_r == 0b111#3)
      (s.seq == .decode && opField s.cmd_r != 0b111#3 && opField s.cmd_r != 0b000#3 && !s.init_done) := by
  have elsewhere (hq : s.seq ≠ .decode) (h : s.FlagsGain t false false) :
      s.FlagsGain t (s.seq == .decode && opField s.cmd_r == 0b111#3)
        (s.seq == .decode && opField s.cmd_r != 0b111#3 && opField s.cmd_r != 0b000#3 && !s.init_done) := by
    simpa only [beq_eq_false_iff_ne.mpr hq, Bool.false_and] using h
  cases step_cases hst with
  | reset hrst => exact absurd hrst (Bool.eq_false_iff.mp hr)
  | accept _ _ hs _ => exact elsewhere (by simp [hs]) (.kept rfl rfl rfl (by simp))
  | stay _ hs _ => exact elsewhere (by simp [hs]) (.kept rfl rfl rfl (by simp [hs]))
  | wait _ _ _ hs _ => exact elsewhere (by simp [hs]) (.kept rfl rfl rfl (by simp [hs]))
  | move _ rest c _ hs _ =>
    obtain ⟨hillegal, hnoinit, htimeout⟩ := (State.proceed_moves { s.hostTick with cnt := c } rest).flagsGain
    exact elsewhere (by simp [hs]) ⟨hillegal, hnoinit, htimeout⟩
  | decode _ _ hs hd =>
    obtain ⟨hillegal, hnoinit, htimeout⟩ := hd.flagsGain
    rw [op_decode] at hillegal hnoinit
    exact ⟨by simpa [hs] using hillegal, by simpa [hs] using hnoinit, htimeout⟩

/-- Settles O44: ILLEGAL and NOINIT are set in DECODE alone, and TIMEOUT by the last step of a wait that timed out,
which `TimeoutInv` places. -/
theorem faultFlagsAreSetOnlyByTheirCause : Obligations.FaultFlagsAreSetOnlyByTheirCause := by
  unfold Obligations.FaultFlagsAreSetOnlyByTheirCause
  intro s t hr hst
  obtain ⟨hillegal, hnoinit, htimeout⟩ := step_flagsGain hr hst
  exact ⟨hillegal, hnoinit, htimeout, fun hinv rest hs => (hinv.step hst _ _ hs).1 rfl⟩

/-! ## `init_done` -/

theorem State.atReady_congr {s t : State} (h : s.params = t.params) (items : List Item) :
    s.atReady items = t.atReady items := by
  have hskips (x : Step) : s.skips x = t.skips x := by
    cases x <;> simp [State.skips, State.delay_congr h]
  induction items with
  | nil => rfl
  | cons i rest ih => cases i <;> simp [State.atReady, hskips, ih]

/-- Moving on sets `init_done` only at the end of INIT, which ends the command (40_init_sequence.md R121). -/
theorem State.atReady_of_proceed_init_done {s : State} {items : List Item} (h : s.init_done = false)
    (ht : (s.proceed items).init_done = true) : (s.proceed items).seq = .idle ∧ s.atReady items = true := by
  have entered {x : Step} {rest : List Item} (hx : (s.enter x rest).init_done = true) : False :=
    absurd hx (Bool.eq_false_iff.mp (s.apply_init_done x h))
  have begun {xs : List Step} {rest : List Item} (hx : (s.begin rest xs).init_done = true) : False :=
    absurd hx (Bool.eq_false_iff.mp (s.begin_init_done rest xs h))
  induction items with
  | nil => exact absurd ht (Bool.eq_false_iff.mp h)
  | cons i rest ih =>
    match i with
    | .ready => exact ⟨rfl, rfl⟩
    | .step x =>
      simp only [State.proceed, State.atReady] at ht ⊢
      split at ht
      case isTrue hx => simpa [hx] using ih ht
      case isFalse => exact (entered ht).elim
    | .pollTest a =>
      simp only [State.proceed] at ht
      split at ht <;> exact (begun ht).elim

theorem State.MovesTo.cfg_of_cleared {s t : State} (h : s.MovesTo t) (hs : s.init_done = true)
    (ht : t.init_done = false) : ∃ rest, t.seq = .run .cfg rest := by
  cases h with
  | enter x rest _ =>
    obtain ⟨-, -, -, rfl | hk, -⟩ := s.apply_flags x
    · exact ⟨rest, rfl⟩
    · simp [hk, hs] at ht
  | finish => simp [hs] at ht
  | ready => simp at ht

theorem ready_not_mem_byteProgram (b : Byte) (rs : Bool) : .ready ∉ byteProgram b rs := by
  simp [byteProgram, xfer, nibble, pulse, busyWait, waitEntry, poll, steps]

theorem cfg_of_init_done_cleared {s t : State} (hr : s.rst = false) (hst : step s = .next t)
    (hs : s.init_done = true) (ht : t.init_done = false) : ∃ rest, t.seq = .run .cfg rest := by
  cases step_cases hst with
  | reset hrst => exact absurd hrst (Bool.eq_false_iff.mp hr)
  | accept _ _ _ _ | stay _ _ _ | wait _ _ _ _ _ => cases hs.symm.trans ht
  | move _ rest c _ _ _ => exact (State.proceed_moves { s.hostTick with cnt := c } rest).cfg_of_cleared hs ht
  | decode _ _ _ hd =>
    generalize decode s.cmd_r = i at hd
    cases hd with
    | cfg _ _ rest => exact ⟨rest, rfl⟩
    | illegal _ _ | noinit _ _ _ | select _ _ _ _ _ => cases hs.symm.trans ht

theorem atReady_of_init_done_set {s t : State} (hr : s.rst = false) (hst : step s = .next t)
    (hs : s.init_done = false) (ht : t.init_done = true) :
    t.seq = .idle ∧ ∃ current rest, s.seq = .run current rest ∧ s.atReady rest = true := by
  cases step_cases hst with
  | reset hrst => exact absurd hrst (Bool.eq_false_iff.mp hr)
  | accept _ _ _ _ | stay _ _ _ | wait _ _ _ _ _ => cases hs.symm.trans ht
  | move x rest c _ hx _ =>
    obtain ⟨hq, ha⟩ := State.atReady_of_proceed_init_done (s := { s.hostTick with cnt := c }) hs ht
    exact ⟨hq, x, rest, hx, (State.atReady_congr (s := s) (t := { s.hostTick with cnt := c }) rfl rest).trans ha⟩
  | decode _ _ _ hd =>
    generalize decode s.cmd_r = i at hd
    cases hd with
    | cfg _ _ _ => cases ht
    | illegal _ _ | noinit _ _ _ | select _ _ _ _ _ => cases hs.symm.trans ht

/-- The end of INIT stands in a list only from INIT's DECODE on. -/
theorem ready_mem_origin {s t : State} (hr : s.rst = false) (hst : step s = .next t) {x : Step} {rest : List Item}
    (ht : t.seq = .run x rest) (hm : .ready ∈ rest) :
    (s.seq = .decode ∧ opField s.cmd_r = 0b000#3) ∨ ∃ current' rest', s.seq = .run current' rest' ∧ .ready ∈ rest' := by
  cases step_edge hst with
  | reset hrst => exact absurd hrst (Bool.eq_false_iff.mp hr)
  | accept _ _ | fault _ _ => cases ht
  | stay _ | wait _ _ _ => exact .inr ⟨x, rest, ht, hm⟩
  | along items c ha _ =>
    have hitems := State.proceed_keeps_ready { s.hostTick with cnt := c } items ht hm
    cases ha with
    | run hs => exact .inr ⟨_, _, hs, hitems⟩
    | decode hs hb =>
      rcases hb.program with ⟨-, hop⟩ | ⟨b, rs, rfl, -⟩
      · exact .inl ⟨hs, (op_decode _).symm.trans hop⟩
      · exact absurd hitems (ready_not_mem_byteProgram b rs)

/-- Settles O45: `CFG` alone clears it, the entry `.ready` alone sets it, and that entry comes from INIT's DECODE. -/
theorem initDoneChangesOnlyInInit : Obligations.InitDoneChangesOnlyInInit := by
  unfold Obligations.InitDoneChangesOnlyInInit
  exact fun s t hr hst => ⟨cfg_of_init_done_cleared hr hst, atReady_of_init_done_set hr hst,
    fun _ _ ht hm => ready_mem_origin hr hst ht hm⟩

/-! ## What an edge keeps -/

/-- The parameters and the command word are kept from `s` to `t`, and RS, RW and E stay driven. -/
structure State.Keeps (s t : State) : Prop where
  params : t.params = s.params
  cmd_r : t.cmd_r = s.cmd_r
  ctl_oe : s.ctl_oe = true → t.ctl_oe = true

theorem Lines.after_ctl_oe {l : Lines} (h : l.ctl_oe = true) (x : Step) : (l.after x).ctl_oe = true := by
  cases x with
  | cfg => rfl
  | _ => exact h

theorem State.MovesTo.keeps {s t : State} (h : s.MovesTo t) : s.Keeps t := by
  cases h with
  | enter x rest _ =>
    obtain ⟨-, -, hcmd, -⟩ := s.apply_flags x
    refine ⟨s.apply_params x, hcmd, fun hc => ?_⟩
    exact (congrArg Lines.ctl_oe (s.enter_lines x rest)).trans (Lines.after_ctl_oe hc x)
  | finish => exact ⟨rfl, rfl, id⟩
  | ready => exact ⟨rfl, rfl, id⟩

/-- An edge without a reset outside IDLE keeps all three, and so does one in IDLE that accepts nothing. -/
theorem step_keeps {s t : State} (hr : s.rst = false) (hst : step s = .next t) :
    s.Keeps t ∨ s.seq = .idle ∧ ∃ w, t = { s with cmd_r := w, seq := .decode, host := s.host.tail } := by
  cases step_edge hst with
  | reset hrst => exact absurd hrst (Bool.eq_false_iff.mp hr)
  | accept w hs => exact .inr ⟨hs, w, rfl⟩
  | stay _ => exact .inl ⟨rfl, rfl, id⟩
  | wait _ _ _ => exact .inl ⟨rfl, rfl, id⟩
  | fault f _ => exact .inl (by cases f <;> exact ⟨rfl, rfl, id⟩)
  | along items c _ _ =>
    obtain ⟨hp, hcmd, hctl⟩ := (State.proceed_moves { s.hostTick with cnt := c } items).keeps
    exact .inl ⟨hp, hcmd, hctl⟩

/-- Settles O46: only an acceptance writes `cmd_r`. -/
theorem commandWordIsConstantWhileBusy : Obligations.CommandWordIsConstantWhileBusy := by
  unfold Obligations.CommandWordIsConstantWhileBusy
  intro s t hr hs hst
  rcases step_keeps hr hst with h | ⟨hidle, -⟩
  · exact h.cmd_r
  · exact absurd hidle hs

/-- Settles O47: a reset edge keeps the parameters by its definition. -/
theorem parametersAreFixed : Obligations.ParametersAreFixed := by
  unfold Obligations.ParametersAreFixed
  intro s t hst
  cases hr : s.rst with
  | true =>
    cases (step_of_rst hr).symm.trans hst
    rfl
  | false =>
    rcases step_keeps hr hst with h | ⟨-, w, rfl⟩
    · exact h.params
    · rfl

/-- Settles O48: no step of a list releases the control lines. -/
theorem onlyResetReleasesTheControlLines : Obligations.OnlyResetReleasesTheControlLines := by
  unfold Obligations.OnlyResetReleasesTheControlLines
  intro s t hr hst hc
  rcases step_keeps hr hst with h | ⟨-, w, rfl⟩
  · exact h.ctl_oe hc
  · exact hc

end Sys2Proof.Machine
end

section
/-! The ports and the single edge (10_state.md R21, R22, R40; 20_memory.md R77, R80; 30_encoding.md R94, R96, R98): the
bytes of the operands, the status word, and what the host's inputs do. -/

namespace Sys2Proof.Machine

/-! ## Operands -/

/-- A column and a row enter `cursor_byte` bit by bit: bit 7 is set, and bit 0 of the row falls on bit 6
(30_encoding.md R94). -/
theorem getLsbD_cursorByte (col row : Byte) (k : Nat) (hk : k < 8) :
    (cursorByte col row).getLsbD k =
      (decide (k = 7) || (decide (k = 6) && row.getLsbD 0) || (decide (k = 7) && row.getLsbD 1) || col.getLsbD k) := by
  interval_cases k <;> simp [cursorByte]

/-- Settles O6: both lines of the formula have the same eight bits. -/
theorem cursorByteFormula : Obligations.CursorByteFormula := by
  unfold Obligations.CursorByteFormula
  refine fun col row => ⟨rfl, BitVec.eq_of_getLsbD_eq fun k hk => ?_⟩
  rw [getLsbD_cursorByte col row k hk]
  interval_cases k <;> simp

theorem exists_ofNat_of_toNat_le {b : Byte} {n : Nat} (h : b.toNat ≤ n) : ∃ k : Fin (n + 1), b = BitVec.ofNat 8 k :=
  ⟨⟨b.toNat, by omega⟩, by simp⟩

/-- Settles O7: the 32 pairs of the source, each evaluated. -/
theorem cursorByteInRange : Obligations.CursorByteInRange := by
  unfold Obligations.CursorByteInRange
  have table : ∀ (c : Fin 16) (r : Fin 2),
      (cursorByte (BitVec.ofNat 8 c) (BitVec.ofNat 8 r)).toNat =
        0x80 + 64 * (BitVec.ofNat 8 r).toNat + (BitVec.ofNat 8 c).toNat := by decide
  refine ⟨fun col row hc hr => ?_, by decide, by decide⟩
  obtain ⟨c, rfl⟩ := exists_ofNat_of_toNat_le hc
  obtain ⟨r, rfl⟩ := exists_ofNat_of_toNat_le hr
  exact table c r

/-- Settles O5: no meaning reads an ignored field, and DISPLAY reads bit 0 alone. -/
theorem ignoredBitsChangeNothing : Obligations.IgnoredBitsChangeNothing := by
  unfold Obligations.IgnoredBitsChangeNothing
  refine fun s a b a' b' => ⟨rfl, rfl, rfl, rfl, rfl, fun h => ?_⟩
  have hbyte : displayByte b = displayByte b' := by rw [displayByte, displayByte, h]
  simp only [exec, execDisplay, hbyte]

/-! ## The status word (10_state.md R40) -/

theorem State.status_getLsbD_zero (s : State) : s.status.getLsbD 0 = s.isIdle := by
  simp only [State.status, BitVec.getLsbD_append]
  simp

theorem State.status_getLsbD_one (s : State) : s.status.getLsbD 1 = s.init_done := by
  simp only [State.status, BitVec.getLsbD_append]
  simp

theorem State.status_getLsbD_six (s : State) : s.status.getLsbD 6 = s.err_timeout := by
  simp only [State.status, BitVec.getLsbD_append]
  simp

theorem State.status_getLsbD_seven (s : State) : s.status.getLsbD 7 = s.busy_r := by
  simp only [State.status, BitVec.getLsbD_append]
  simp

/-- DIR is bits 3:2 of the status word. -/
theorem State.status_dir (s : State) : s.status.extractLsb' 2 2 = s.dir.code := by
  refine BitVec.eq_of_getLsbD_eq fun k hk => ?_
  interval_cases k <;> simp only [State.status, BitVec.getLsbD_extractLsb', BitVec.getLsbD_append] <;> simp

/-- Settles O49: one lemma for each field. -/
theorem statusWordFields : Obligations.StatusWordFields := by
  unfold Obligations.StatusWordFields
  refine fun s => ⟨s.status_getLsbD_zero, s.status_getLsbD_one, s.status_dir.trans ?_, s.status_getLsbD_four,
    s.status_getLsbD_five, s.status_getLsbD_six, s.status_getLsbD_seven, fun hr => ?_⟩
  · cases s.dir <;> rfl
  · rw [s.status_getLsbD_zero, State.cmdReady, hr, Bool.not_false, Bool.and_true]

/-- Settles O41: IDLE in the status word is the position IDLE, in which the line invariant gives the rest. -/
theorem statusIsLegal : Obligations.StatusIsLegal := by
  unfold Obligations.StatusIsLegal
  intro s h
  rw [s.status_dir, s.status_getLsbD_zero, s.status_getLsbD_one]
  refine ⟨by cases s.dir <;> decide, fun hidle => ?_⟩
  have hs : s.seq = .idle := by simpa [State.isIdle] using hidle
  obtain ⟨he, hrw, hinp, hout⟩ := h.idle (.inl hs)
  refine ⟨?_, hrw, he, fun hi => by rw [hout hi]; rfl⟩
  cases hd : s.dir with
  | inp => exact absurd hd hinp
  | _ => decide

/-! ## The reset edge and the acceptance edge -/

theorem hostAfterEdge_of_rst {s : State} (h : s.rst = true) : hostAfterEdge s.host = s.host.tail := by
  unfold State.rst State.hostMove at h
  match hh : s.host with
  | [] => rfl
  | .reset _ :: _ => rfl
  | .idle :: _ | .offer _ :: _ | .glance _ :: _ => simp [hh, HostMove.rst] at h

theorem State.cmdReady_of_rst {s : State} (h : s.rst = true) : s.cmdReady = false := by
  simp [State.cmdReady, h]

/-- Settles O10: the reset edge keeps what is no register of the block, and its outputs are those of the reset
values. -/
theorem resetWinsOverEverything : Obligations.ResetWinsOverEverything := by
  unfold Obligations.ResetWinsOverEverything
  intro s hr
  refine ⟨State.cmdReady_of_rst hr, by simp [State.accepted, State.cmdReady_of_rst hr], _, step_of_rst hr, ?_,
    rfl, rfl, rfl, rfl, rfl⟩
  rw [State.resetEdge, hostAfterEdge_of_rst hr]

/-- The block after the acceptance edge (20_memory.md R80). -/
def State.afterAccept (s : State) (w : CmdWord) : State := { s with cmd_r := w, seq := .decode, host := s.host.tail }

theorem step_accept {s : State} {w : CmdWord} (hr : s.rst = false) (hs : s.seq = .idle)
    (hw : s.hostMove.offered = some w) : step s = .next (s.afterAccept w) := by
  rw [step_of_idle hr hs, State.idleEdge, hw]
  rfl

theorem step_idle_no_offer {s : State} (hr : s.rst = false) (hs : s.seq = .idle) (hn : s.hostMove.offered = none) :
    step s = .next s.hostTick := by
  rw [step_of_idle hr hs, State.idleEdge, hn]

/-- Settles O11: the two cases of the edge in IDLE. -/
theorem acceptanceEdge : Obligations.AcceptanceEdge := by
  unfold Obligations.AcceptanceEdge
  exact fun s hs hr => ⟨fun _ hw => step_accept hr hs hw, step_idle_no_offer hr hs⟩

/-- Settles O13: `withFetchWord` puts the word in `cmd_r` and an idle move at the head of the host's list. -/
theorem stepRunsTheDecodedCommand : Obligations.StepRunsTheDecodedCommand := by
  unfold Obligations.StepRunsTheDecodedCommand
  refine ⟨fun s hs hr => step_of_decode hr hs, fun s w => ?_⟩
  have hw : BitVec.ofNat 19 (w.toNat % 2 ^ 19) = w := BitVec.eq_of_toNat_eq (by simpa using w.isLt)
  rw [step_of_decode rfl rfl, State.withFetchWord, hw]
  rfl

theorem exec_next (i : Instr) (s : State) : ∃ t, exec i s = .next t := by
  rcases exec_fault_or_begins i s.init_done with ⟨f, h⟩ | ⟨items, h⟩
  · exact ⟨_, h s rfl⟩
  · exact ⟨_, (h s rfl).2⟩

/-- Settles O14: `exec` answers a next state, and the edge of every other position is one. -/
theorem everyEdgeHasANextState : Obligations.EveryEdgeHasANextState := by
  unfold Obligations.EveryEdgeHasANextState
  intro s
  cases hr : s.rst with
  | true => exact ⟨_, step_of_rst hr⟩
  | false =>
    cases hs : s.seq with
    | idle => exact ⟨_, step_of_idle hr hs⟩
    | decode => exact step_of_decode hr hs ▸ exec_next _ _
    | run x rest => exact ⟨_, step_run s x rest hs hr⟩

/-! ## The host outside IDLE -/

/-- What `exec` answers does not depend on the position or the host's moves, and it keeps the latter. -/
theorem exec_at (i : Instr) (s : State) : ∃ t : State, ∀ q h, exec i (s.at q h) = .next (t.at t.seq h) := by
  rcases exec_fault_or_begins i s.init_done with ⟨f, hf⟩ | ⟨items, hb⟩
  · refine ⟨s.raiseFault f, fun q h => (hf (s.at q h) rfl).trans ?_⟩
    cases f <;> rfl
  · refine ⟨s.proceed items, fun q h => (hb (s.at q h) rfl).2.trans ?_⟩
    rw [State.proceed_at]

theorem State.runEdge_at (s : State) (h : List HostMove) (x : Step) (rest : List Item) :
    (s.at s.seq h).runEdge x rest = (s.runEdge x rest).at (s.runEdge x rest).seq h := by
  cases x with
  | wait d =>
    simp only [State.runEdge, show (s.at s.seq h).cnt = s.cnt from rfl]
    split
    · rfl
    · exact State.proceed_at { s with cnt := 0 } s.seq h rest
  | _ => exact State.proceed_at s s.seq h rest

/-- Outside IDLE and without a reset the next state depends on the host's moves in its own list of them alone. -/
theorem step_at {s : State} (hs : s.seq ≠ .idle) :
    ∃ t : State, ∀ h, (s.at s.seq h).rst = false →
      step (s.at s.seq h) = .next (t.at t.seq (hostAfterEdge h)) := by
  obtain hq | ⟨x, rest, hq⟩ : s.seq = .decode ∨ ∃ x rest, s.seq = .run x rest := by
    cases hq : s.seq <;> simp_all
  · obtain ⟨t, ht⟩ := exec_at (decode s.cmd_r) s
    exact ⟨t, fun h hr => (step_of_decode hr hq).trans (ht s.seq (hostAfterEdge h))⟩
  · refine ⟨s.runEdge x rest, fun h hr => (step_run (s.at s.seq h) x rest hq hr).trans ?_⟩
    exact congrArg _ (s.runEdge_at (hostAfterEdge h) x rest)

/-- Settles O12: the same `t` serves both hosts. -/
theorem busyBlockIgnoresOffers : Obligations.BusyBlockIgnoresOffers := by
  unfold Obligations.BusyBlockIgnoresOffers
  intro s h h' hs hr hr'
  obtain ⟨t, ht⟩ := step_at hs
  exact ⟨t, ht h hr, ht h' hr'⟩

/-! ## Waits -/

/-- A cycle of a wait that is not its last one: only the counter and the host move on. -/
theorem step_of_wait {s : State} {d : Delay} {rest : List Item} {n : Nat} (hs : s.seq = .run (.wait d) rest)
    (hc : s.cnt = n + 2) (hr : s.rst = false) : step s = .next { s.hostTick with cnt := n + 1 } := by
  simp [step_run s _ _ hs hr, State.runEdge, hc]

theorem runFor_of_wait {s : State} {d : Delay} {rest : List Item} {n : Nat} (m : Nat)
    (hs : s.seq = .run (.wait d) rest) (hc : s.cnt = m + n + 1) (hq : quietFor m s.host = true) :
    runFor m s = .next (({ s with cnt := n + 1 } : State).ticks m) := by
  induction m generalizing s with
  | zero =>
    have hc : s.cnt = n + 1 := by omega
    rw [← hc]
    rfl
  | succ m ih =>
    have hw := step_of_wait (n := m + n) hs (by omega) (rst_eq_false hq)
    simp only [runFor, hw]
    exact ih (s := { s.hostTick with cnt := m + n + 1 }) hs rfl (quietFor_after hq)

/-- Settles O15: the cycles before the last one only count, and the last edge moves on. -/
theorem waitLastsItsCycles : Obligations.WaitLastsItsCycles := by
  unfold Obligations.WaitLastsItsCycles
  intro s d rest n hs hc hq
  refine ⟨fun m hm => ?_, ?_⟩
  · obtain ⟨k, rfl⟩ := Nat.exists_eq_add_of_le hm
    rw [show m + k + 1 - m = k + 1 by omega]
    exact runFor_of_wait m hs hc (quietFor_split (n := k + 1) (by rwa [← Nat.add_assoc])).1
  · rw [State.proceed_ticks]
    exact (BusyUntil.wait n s d rest hs hc hq).1

end Sys2Proof.Machine
end

section
/-! The procedures on the bus (41_byte_transfer.md, 42_enable_pulse.md): `Runs` says that a block moves along a step
list to another list in so many cycles, for any host without a reset, and composes. -/

namespace Sys2Proof.Machine

/-! ## Runs along step lists -/

/-- With any quiet host, `n` busy cycles lead from `s` at the list `items` to `t` at the list `items'`. -/
def Runs (n : Nat) (s : State) (items : List Item) (t : State) (items' : List Item) : Prop :=
  ∀ h, quietFor n h = true →
    BusyUntil n ((s.at s.seq h).proceed items) ((t.at t.seq (hostAfterEdges n h)).proceed items')

theorem Runs.refl (s : State) (items : List Item) : Runs 0 s items s items := fun _ _ => BusyUntil.refl _

theorem Runs.trans {m n : Nat} {s t u : State} {a b c : List Item} (h₁ : Runs m s a t b) (h₂ : Runs n t b u c) :
    Runs (m + n) s a u c := by
  intro h hq
  obtain ⟨hm, hn⟩ := quietFor_split hq
  rw [hostAfterEdges_add]
  exact (h₁ h hm).trans (h₂ _ hn)

/-- Moving on does not read the position left behind. -/
theorem State.proceed_at_seq (s : State) (q q' : Seq) (h : List HostMove) (items : List Item) :
    (s.at q h).proceed items = (s.at q' h).proceed items := by
  rw [State.proceed_at, State.proceed_at]

/-- A list of steps takes its cycles and leaves what its steps write. -/
theorem Runs.steps (s : State) (xs : List Step) (rest : List Item) :
    Runs (s.cyclesAll xs) s (Machine.steps xs ++ rest) (s.throughAll xs) rest := by
  intro h hq
  have hc : (s.at s.seq h).cyclesAll xs = s.cyclesAll xs :=
    State.cyclesAll_congr (s := s.at s.seq h) (t := s) rfl xs
  have hb := BusyUntil.steps xs (s.at s.seq h) rest (by rwa [hc])
  rw [hc, State.throughAll_at, ← State.proceed_ticks, State.ticks_eq_at] at hb
  exact State.proceed_at_seq (s.throughAll xs) _ _ _ rest ▸ hb

/-- A run of the block's own host, as the statements have it. -/
theorem Runs.busyUntil {n : Nat} {s t : State} {items items' : List Item} (h : Runs n s items t items')
    (hh : t.host = s.host) (hq : quietFor n s.host = true) :
    BusyUntil n (s.proceed items) ((t.ticks n).proceed items') := by
  rw [State.ticks_eq_at, hh]
  exact h s.host hq

/-! ## PULSE, NIBBLE and XFER -/

theorem State.throughAll_readPulse (s : State) (hl : s.params.Legal) (hc : s.ctl_oe = true) (hw : s.rw_o = true)
    (he : s.e_o = false) : s.throughAll pulse = { s with cnt := 0, trace := s.trace ++ pulseEvents } := by
  obtain ⟨_, hs, hh, _⟩ := hl
  have hs : s.params.nSettle ≠ 0 := by omega
  have hh : s.params.nHold ≠ 0 := by omega
  simp [pulse, State.through, State.apply, State.emit, State.delay, Delay.events, State.fall, State.lcdRs, State.lcdRw,
    State.lcdE, pulseEvents, *]

theorem Runs.readPulse (s : State) (rest : List Item) (hl : s.params.Legal) (hc : s.ctl_oe = true)
    (hw : s.rw_o = true) (he : s.e_o = false) :
    Runs s.params.pulseCycles s (Machine.steps pulse ++ rest) { s with cnt := 0, trace := s.trace ++ pulseEvents }
      rest := by
  have h := Runs.steps s pulse rest
  rwa [State.cyclesAll_pulse, State.throughAll_readPulse s hl hc hw he] at h

theorem Runs.nibble (s : State) (n : Nibble) (rest : List Item) (hl : s.params.Legal) (hw : s.WriteReady) :
    Runs s.params.nibbleCycles s (Machine.steps (Machine.nibble (.fixed n)) ++ rest) (s.afterNibble n) rest := by
  have h := Runs.steps s (Machine.nibble (.fixed n)) rest
  rwa [State.cyclesAll_nibble, State.throughAll_nibble s n hl hw] at h

theorem Runs.xfer (s : State) (b : Byte) (rs : Bool) (rest : List Item) (hl : s.params.Legal) (hw : s.WriteReady) :
    Runs s.params.xferCycles s (Machine.steps (Machine.xfer b rs) ++ rest) (s.afterXfer b rs) rest := by
  have h := Runs.steps s (Machine.xfer b rs) rest
  rwa [State.cyclesAll_xfer, State.throughAll_xfer s b rs hl hw] at h

/-- Settles O21: the steps of a pulse with RW = 1 write `e_o` and put it back. -/
theorem readPulseStoresNothing : Obligations.ReadPulseStoresNothing := by
  unfold Obligations.ReadPulseStoresNothing
  exact fun s rest hl hc hw he hq => (Runs.readPulse s rest hl hc hw he).busyUntil rfl hq

/-- Settles O22: the steps of `NIBBLE`. -/
theorem nibbleIsOneLatchEvent : Obligations.NibbleIsOneLatchEvent := by
  unfold Obligations.NibbleIsOneLatchEvent
  exact fun s n rest hl hw hq => (Runs.nibble s n rest hl hw).busyUntil rfl hq

/-- A byte is its two nibbles (20_memory.md R62). -/
theorem highNibble_append_lowNibble (b : Byte) : highNibble b ++ lowNibble b = b := by
  refine BitVec.eq_of_getLsbD_eq fun k hk => ?_
  simp only [highNibble, lowNibble, BitVec.getLsbD_append, BitVec.getLsbD_extractLsb']
  interval_cases k <;> simp

/-- Settles O23: the steps of `XFER`. -/
theorem byteTransferIsTwoLatchEvents : Obligations.ByteTransferIsTwoLatchEvents := by
  unfold Obligations.ByteTransferIsTwoLatchEvents
  exact fun s b rs rest hl hw hq => ⟨highNibble_append_lowNibble b, (Runs.xfer s b rs rest hl hw).busyUntil rfl hq⟩

/-! ## E in each cycle of a pulse -/

theorem quietFor_of_lt {m n : Nat} {h : List HostMove} (hmn : m < n) (hq : quietFor n h = true) :
    quietFor m h = true := by
  obtain ⟨k, rfl⟩ := Nat.exists_eq_add_of_le hmn.le
  exact (quietFor_split hq).1

/-- What a step does to E. -/
def Step.enableAfter (e : Bool) : Step → Bool
  | .enable v => v
  | .cfg => false
  | _ => e

/-- E in the cycle `n` of a list of steps that starts with this E. -/
def State.enableAt (s : State) (e : Bool) : List Step → Nat → Bool
  | [], _ => e
  | x :: xs, n => if n < s.cycles x then x.enableAfter e else s.enableAt (x.enableAfter e) xs (n - s.cycles x)

theorem State.apply_e_o (s : State) (x : Step) : (s.apply x).e_o = x.enableAfter s.e_o := by
  have hl : (s.apply x).e_o = (s.lines.after x).e := congrArg Lines.e (s.lines_apply x)
  rw [hl]
  cases x <;> rfl

theorem State.through_e_o (s : State) (x : Step) : (s.through x).e_o = x.enableAfter s.e_o := by
  cases x with
  | wait d =>
    simp only [State.through]
    split <;> rfl
  | _ => exact s.apply_e_o _

theorem State.enableAt_congr {s t : State} (h : s.params = t.params) (e : Bool) (xs : List Step) (n : Nat) :
    s.enableAt e xs n = t.enableAt e xs n := by
  induction xs generalizing e n with
  | nil => rfl
  | cons x xs ih => simp only [State.enableAt, State.cycles_congr h, ih]

/-- In every cycle of a step E is what the step wrote. -/
theorem runFor_during (s : State) (x : Step) (rest : List Item) (n : Nat) (hn : n < s.cycles x)
    (hq : quietFor n s.host = true) :
    ∃ u, runFor n (s.proceed (.step x :: rest)) = .next u ∧ u.e_o = x.enableAfter s.e_o := by
  have first (hx : s.skips x = false) (h0 : n = 0) :
      ∃ u, runFor n (s.proceed (.step x :: rest)) = .next u ∧ u.e_o = x.enableAfter s.e_o := by
    subst h0
    exact ⟨s.enter x rest, congrArg Host.Outcome.next (State.proceed_step _ _ _ hx), s.apply_e_o x⟩
  cases x with
  | wait d =>
    have hd : n < s.delay d := hn
    obtain ⟨k, hk⟩ := Nat.exists_eq_add_of_lt hd
    have hskip : s.skips (.wait d) = false := beq_eq_false_iff_ne.mpr (by omega)
    have hw := runFor_of_wait (s := s.enter (.wait d) rest) n rfl hk (by simpa using hq)
    exact ⟨_, (congrArg (runFor n) (State.proceed_step _ _ _ hskip)).trans hw, rfl⟩
  | _ => exact first rfl (Nat.lt_one_iff.mp hn)

/-- In every cycle of a list of steps E is what the steps so far wrote. -/
theorem runFor_steps_e_o (xs : List Step) (s : State) (rest : List Item) (n : Nat) (hn : n < s.cyclesAll xs)
    (hq : quietFor n s.host = true) :
    ∃ u, runFor n (s.proceed (Machine.steps xs ++ rest)) = .next u ∧ u.e_o = s.enableAt s.e_o xs n := by
  induction xs generalizing s n with
  | nil => exact absurd hn (Nat.not_lt_zero n)
  | cons x xs ih =>
    simp only [State.cyclesAll, State.enableAt] at hn ⊢
    split
    case isTrue hx => exact runFor_during s x _ n hx hq
    case isFalse hx =>
      obtain ⟨m, rfl⟩ := Nat.exists_eq_add_of_le (Nat.le_of_not_lt hx)
      obtain ⟨hqx, hqm⟩ := quietFor_split hq
      have hb := BusyUntil.step s x (Machine.steps xs ++ rest) hqx
      rw [← State.proceed_ticks] at hb
      let t := (s.through x).ticks (s.cycles x)
      have hp : t.params = s.params := s.through_params x
      obtain ⟨u, hu, he⟩ := ih t m (by rw [State.cyclesAll_congr hp]; omega)
        (by simpa [t, State.ticks] using hqm)
      refine ⟨u, runFor_add hb.1 hu, he.trans ?_⟩
      rw [State.enableAt_congr hp, Nat.add_sub_cancel_left]
      exact congrArg (s.enableAt · xs m) (s.through_e_o x)

theorem State.enableAt_pulse (s : State) {n : Nat} (hn : n < s.params.pulseCycles) :
    s.enableAt false pulse n =
      (decide (s.params.nSettle ≤ n) && decide (n < s.params.nSettle + s.params.nHold + 1)) := by
  unfold Params.pulseCycles at hn
  simp only [pulse, State.enableAt, Step.enableAfter]
  split_ifs <;>
    rw [Bool.eq_iff_iff] <;>
    simp only [State.cycles, State.delay, Bool.and_eq_true, decide_eq_true_eq, Bool.false_eq_true, false_iff,
      true_iff] at * <;>
    omega

theorem State.enableAt_poll (s : State) {n : Nat} (hn : n < s.params.pollCycles) :
    s.enableAt false poll n =
      let low := s.params.nSettle + s.params.nHold + 2
      (decide (s.params.nSettle ≤ n ∧ n < low) ||
        decide (low + 1 + s.params.nSettle ≤ n ∧ n < low + 1 + s.params.nSettle + s.params.nHold + 1)) := by
  unfold Params.pollCycles at hn
  simp only [poll, pulse, List.cons_append, List.nil_append, State.enableAt, Step.enableAfter]
  split_ifs <;>
    rw [Bool.eq_iff_iff] <;>
    simp only [State.cycles, State.delay, Bool.or_eq_true, decide_eq_true_eq, Bool.false_eq_true, false_iff,
      true_iff] at * <;>
    omega

/-- Settles O20: in a pulse E is written once in front of the hold and once after it. -/
theorem enableIsHighForHoldPlusOneCycles : Obligations.EnableIsHighForHoldPlusOneCycles := by
  unfold Obligations.EnableIsHighForHoldPlusOneCycles
  intro s rest n u _ he hq hu hn
  obtain ⟨v, hv, hve⟩ := runFor_steps_e_o pulse s rest n (by rwa [State.cyclesAll_pulse]) (quietFor_of_lt hn hq)
  cases hu.symm.trans hv
  rw [hve, he, s.enableAt_pulse hn]

/-- Settles O56: the sampling step adds one cycle to the hold of the sampling pulse. -/
theorem enableIsHighLongerInASamplingPulse : Obligations.EnableIsHighLongerInASamplingPulse := by
  unfold Obligations.EnableIsHighLongerInASamplingPulse
  intro s rest n _ he hq hn
  obtain ⟨u, hu, hue⟩ := runFor_steps_e_o poll s rest n (by rwa [State.cyclesAll_poll]) (quietFor_of_lt hn hq)
  exact ⟨u, hu, by rw [hue, he, s.enableAt_poll hn]⟩

end Sys2Proof.Machine
end

section
/-! The busy-flag wait (43_busy_wait.md): the loop of busy polls, its two exits, and the wait that no sample ends. -/

namespace Sys2Proof.Machine

/-! ## The loop of polls -/

/-- Busy polls from their last one. -/
theorem busyPollEvents_succ (k : Nat) : busyPollEvents (k + 1) = busyPollEvents k ++ pollEvents true := by
  induction k with
  | zero => rfl
  | succ k ih => exact (congrArg (pollEvents true ++ ·) ih).trans (List.append_assoc ..).symm

/-- The block after so many polls. -/
def State.afterPolls (s : State) : Nat → State
  | 0 => s
  | k + 1 => (s.afterPolls k).afterPoll

@[simp] theorem State.afterPolls_params (s : State) (k : Nat) : (s.afterPolls k).params = s.params := by
  induction k with
  | zero => rfl
  | succ k ih => exact ih

theorem State.Polling.afterPolls {s : State} (h : s.Polling) (k : Nat) : (s.afterPolls k).Polling := by
  induction k with
  | zero => exact h
  | succ k ih => exact ih

theorem State.busyAt_afterPolls (s : State) (k j : Nat) : (s.afterPolls k).busyAt j = s.busyAt (k + j) := by
  induction k generalizing j with
  | zero => simp [State.afterPolls]
  | succ k ih => rw [State.afterPolls, State.busyAt_afterPoll, ih, Nat.succ_add_eq_add_succ]

theorem State.polls_afterPolls {s : State} (h : s.params.pollLimit ≠ 0) (k : Nat) :
    (s.afterPolls k).polls = s.polls + k := by
  induction k with
  | zero => rfl
  | succ k ih =>
    have hpolls : (s.afterPolls k).afterPoll.polls = (s.afterPolls k).polls + 1 := if_neg (by simpa using h)
    rw [State.afterPolls, hpolls, ih, Nat.add_assoc]

/-- What busy polls and one more leave: the last sample, as many polls and draws, and the events of each. -/
theorem State.afterPolls_eq (s : State) (k : Nat) (hb : ∀ j, j < k → s.busyAt j = true) :
    s.afterPolls (k + 1) =
      { s with
        busy_r := s.busyAt k
        polls := if s.params.pollLimit = 0 then s.polls else s.polls + (k + 1)
        lcdAnswers := s.answersAfter (k + 1)
        draws := s.draws + (k + 1)
        cnt := 0
        trace := s.trace ++ busyPollEvents k ++ pollEvents (s.busyAt k) } := by
  induction k with
  | zero =>
    by_cases hl : s.params.pollLimit = 0 <;> simp [State.afterPolls, State.afterPoll, busyPollEvents, hl]
  | succ k ih =>
    have hk : s.busyAt k = true := hb k (Nat.lt_succ_self k)
    have hnext : (s.afterPolls (k + 1)).busyAt 0 = s.busyAt (k + 1) := s.busyAt_afterPolls (k + 1) 0
    rw [State.afterPolls, State.afterPoll, hnext, ih fun j hj => hb j (Nat.lt_succ_of_lt hj), hk]
    by_cases hp : s.lcdPresent = true <;> by_cases hl : s.params.pollLimit = 0 <;>
      simp [State.answersAfter, busyPollEvents_succ, hp, hl, Nat.add_assoc]

theorem Runs.poll (s : State) (rest : List Item) (hl : s.params.Legal) (hp : s.Polling) :
    Runs s.params.pollCycles s (Machine.steps Machine.poll ++ rest) s.afterPoll rest := by
  have h := Runs.steps s Machine.poll rest
  rwa [State.cyclesAll_poll, State.throughAll_poll s hl hp] at h

/-- The test at the end of a poll takes no cycle. -/
theorem Runs.of_proceed_eq {s : State} {a b : List Item}
    (h : ∀ h', (s.at s.seq h').proceed a = (s.at s.seq h').proceed b) :
    Runs 0 s a s b :=
  fun h' _ => h h' ▸ BusyUntil.refl _

theorem Runs.pollTest_ok {s : State} (a : OnTimeout) (rest : List Item) (h : s.pollResult = some .ok) :
    Runs 0 s (.pollTest a :: rest) s (Machine.steps (waitExit .ok) ++ rest) := by
  refine .of_proceed_eq fun h' => ?_
  have hr : (s.at s.seq h').pollResult = some .ok := h
  rw [← State.begin_waitExit, State.proceed, hr]

theorem Runs.pollTest_timeout {s : State} (a : OnTimeout) (rest : List Item) (h : s.pollResult = some .timeout) :
    Runs 0 s (.pollTest a :: rest) s (Machine.steps (waitExit .timeout) ++ a.rest rest) := by
  refine .of_proceed_eq fun h' => ?_
  have hr : (s.at s.seq h').pollResult = some .timeout := h
  rw [← State.begin_waitExit, State.proceed, hr]

theorem Runs.pollTest_again {s : State} (a : OnTimeout) (rest : List Item) (h : s.pollResult = none) :
    Runs 0 s (.pollTest a :: rest) s (Machine.steps Machine.poll ++ .pollTest a :: rest) := by
  refine .of_proceed_eq fun h' => ?_
  have hr : (s.at s.seq h').pollResult = none := h
  rw [← State.begin_poll, State.proceed, hr]

/-- Busy polls below the limit come back to the start of a poll (43_busy_wait.md R155, R156). -/
theorem Runs.busyPolls (k : Nat) (s : State) (a : OnTimeout) (rest : List Item) (hl : s.params.Legal) (hp : s.Polling)
    (hb : ∀ j, j < k → s.busyAt j = true) (hlim : s.params.pollLimit = 0 ∨ s.polls + k < s.params.pollLimit) :
    Runs (k * s.params.pollCycles) s (Machine.steps Machine.poll ++ .pollTest a :: rest) (s.afterPolls k)
      (Machine.steps Machine.poll ++ .pollTest a :: rest) := by
  induction k with
  | zero =>
    rw [Nat.zero_mul]
    exact Runs.refl s _
  | succ k ih =>
    have hrun := ih (fun j hj => hb j (Nat.lt_succ_of_lt hj)) (hlim.imp_right fun h => by omega)
    have hpoll := Runs.poll (s.afterPolls k) (.pollTest a :: rest) (s.afterPolls_params k ▸ hl) (hp.afterPolls k)
    have hnone : (s.afterPolls (k + 1)).pollResult = none := by
      refine State.pollResult_eq_none_iff.mpr ⟨?_, fun h0 => ?_⟩
      · exact (s.busyAt_afterPolls k 0).trans (hb k (Nat.lt_succ_self k))
      · rw [State.afterPolls_params] at h0 ⊢
        rw [State.polls_afterPolls h0]
        omega
    rw [State.afterPolls_params] at hpoll
    rw [Nat.succ_mul]
    exact (hrun.trans hpoll).trans (Runs.pollTest_again a rest hnone)

/-! ## A whole wait -/

theorem Runs.waitEntry (s : State) (rest : List Item) :
    Runs 3 s (Machine.steps Machine.waitEntry ++ rest) s.afterEntry rest := by
  have h := Runs.steps s Machine.waitEntry rest
  rwa [State.throughAll_waitEntry] at h

theorem Runs.waitExit (s : State) (r : WaitResult) (rest : List Item) :
    Runs 2 s (Machine.steps (Machine.waitExit r) ++ rest) (s.afterExit r) rest := by
  have h := Runs.steps s (Machine.waitExit r) rest
  rwa [State.throughAll_waitExit] at h

theorem State.WriteReady.polling {s : State} (h : s.WriteReady) : s.afterEntry.Polling := by
  obtain ⟨hc, -, -, -, -, he⟩ := h
  exact ⟨hc, rfl, rfl, rfl, he, rfl⟩

theorem State.busyAt_afterEntry (s : State) (j : Nat) : s.afterEntry.busyAt j = s.busyAt j := rfl

/-- The entry of a wait and so many busy polls below the limit. -/
theorem Runs.waitPolls (k : Nat) (s : State) (a : OnTimeout) (rest : List Item) (hl : s.params.Legal)
    (hw : s.WriteReady) (hb : ∀ j, j < k → s.busyAt j = true) (hlim : s.params.pollLimit = 0 ∨ k < s.params.pollLimit) :
    Runs (3 + k * s.params.pollCycles) s (busyWait a ++ rest) (s.afterEntry.afterPolls k)
      (Machine.steps Machine.poll ++ .pollTest a :: rest) := by
  have hlist : busyWait a ++ rest =
      Machine.steps Machine.waitEntry ++ (Machine.steps Machine.poll ++ .pollTest a :: rest) := by
    simp [busyWait, Machine.steps]
  rw [hlist]
  refine (Runs.waitEntry s _).trans (Runs.busyPolls k s.afterEntry a rest hl hw.polling hb ?_)
  refine or_iff_not_imp_left.mpr fun h0 => ?_
  have hpolls : s.afterEntry.polls = 0 := if_neg h0
  rw [hpolls, Nat.zero_add]
  exact hlim.resolve_left h0

/-- The polls of a wait up to its last one, whose sample is tested: the cycles and what they leave. -/
theorem Runs.lastPoll (k : Nat) (s : State) (a : OnTimeout) (rest : List Item) (hl : s.params.Legal) (hw : s.WriteReady)
    (hb : ∀ j, j < k → s.busyAt j = true) (hlim : s.params.pollLimit = 0 ∨ k < s.params.pollLimit) :
    Runs (3 + (k + 1) * s.params.pollCycles) s (busyWait a ++ rest) (s.afterEntry.afterPolls (k + 1))
      (.pollTest a :: rest) := by
  have hpar : (s.afterEntry.afterPolls k).params = s.params := s.afterEntry.afterPolls_params k
  have hlast := Runs.poll (s.afterEntry.afterPolls k) (.pollTest a :: rest) (hpar ▸ hl) (hw.polling.afterPolls k)
  rw [hpar] at hlast
  rw [Nat.succ_mul, ← Nat.add_assoc]
  exact (Runs.waitPolls k s a rest hl hw hb hlim).trans hlast

theorem State.afterExit_ok_eq (s : State) (k : Nat) (hw : s.WriteReady) (hb : ∀ j, j < k → s.busyAt j = true)
    (hk : s.busyAt k = false) : (s.afterEntry.afterPolls (k + 1)).afterExit .ok = s.afterWait (k + 1) := by
  obtain ⟨-, hd, hoe, hpu, hrw, -⟩ := hw
  have hk' : s.afterEntry.busyAt k = false := hk
  rw [s.afterEntry.afterPolls_eq k hb, hk']
  by_cases hl : s.params.pollLimit = 0 <;>
    simp [State.afterEntry, State.afterExit, State.afterWait, State.pollsAfter, State.answersAfter, waitEvents, hd, hoe,
      hpu, hrw, hl]

theorem State.afterExit_timeout_eq (s : State) (k : Nat) (hw : s.WriteReady) (hl : s.params.pollLimit = k + 1)
    (hb : ∀ j, j < k + 1 → s.busyAt j = true) :
    (s.afterEntry.afterPolls (k + 1)).afterExit .timeout = s.afterTimeout := by
  obtain ⟨-, hd, hoe, hpu, hrw, -⟩ := hw
  have hk : s.afterEntry.busyAt k = true := hb k (Nat.lt_succ_self k)
  rw [s.afterEntry.afterPolls_eq k fun j hj => hb j (Nat.lt_succ_of_lt hj), hk]
  simp [State.afterEntry, State.afterExit, State.afterTimeout, State.answersAfter, timeoutEvents, busyPollEvents_succ,
    hd, hoe, hpu, hrw, hl]

/-- A wait that ends OK (43_busy_wait.md R155, R157). -/
theorem Runs.busyWait_ok {s : State} {k : Nat} (a : OnTimeout) (rest : List Item) (hl : s.params.Legal)
    (hw : s.WriteReady) (hr : s.ReadyAfter 0 k) :
    Runs (s.params.waitCycles k) s (busyWait a ++ rest) (s.afterWait k) rest := by
  obtain ⟨hk1, hbusy, hready, hlim⟩ := hr
  obtain ⟨k, rfl⟩ := Nat.exists_eq_add_of_le' hk1
  have hb : ∀ j, j < k → s.busyAt j = true := fun j hj => Nat.zero_add j ▸ hbusy j (Nat.succ_lt_succ hj)
  have hk : s.busyAt k = false := by simpa using hready
  have hok : (s.afterEntry.afterPolls (k + 1)).pollResult = some .ok :=
    if_pos ((s.afterEntry.busyAt_afterPolls k 0).trans hk)
  have hrun := (Runs.lastPoll k s a rest hl hw hb hlim).trans
    ((Runs.pollTest_ok a rest hok).trans (Runs.waitExit _ .ok rest))
  rw [State.afterExit_ok_eq s k hw hb hk] at hrun
  have hcycles : s.params.waitCycles (k + 1) = 3 + (k + 1) * s.params.pollCycles + (0 + 2) := by
    unfold Params.waitCycles
    omega
  rwa [hcycles]

/-- A wait that times out (43_busy_wait.md R156, R157). -/
theorem Runs.busyWait_timeout {s : State} (a : OnTimeout) (rest : List Item) (hl : s.params.Legal)
    (hw : s.WriteReady) (ht : s.TimesOut 0) :
    Runs (s.params.waitCycles s.params.pollLimit) s (busyWait a ++ rest) s.afterTimeout (a.rest rest) := by
  obtain ⟨h0, hbusy⟩ := ht
  obtain ⟨k, hk⟩ : ∃ k, s.params.pollLimit = k + 1 := Nat.exists_eq_succ_of_ne_zero h0
  have hb : ∀ j, j < k + 1 → s.busyAt j = true := fun j hj => Nat.zero_add j ▸ hbusy j (hk ▸ hj)
  have hpar : (s.afterEntry.afterPolls (k + 1)).params = s.params := s.afterEntry.afterPolls_params (k + 1)
  have hout : (s.afterEntry.afterPolls (k + 1)).pollResult = some .timeout := by
    refine State.pollResult_eq_timeout_iff.mpr ⟨hpar ▸ h0, ?_, ?_⟩
    · have hentry : s.afterEntry.polls = 0 := if_neg h0
      rw [hpar, State.polls_afterPolls (s := s.afterEntry) h0, hentry, hk, Nat.zero_add]
    · exact (s.afterEntry.busyAt_afterPolls k 0).trans (hb k (Nat.lt_succ_self k))
  have hrun := (Runs.lastPoll k s a rest hl hw (fun j hj => hb j (Nat.lt_succ_of_lt hj)) (.inr (by omega))).trans
    ((Runs.pollTest_timeout a rest hout).trans (Runs.waitExit _ .timeout (a.rest rest)))
  rw [State.afterExit_timeout_eq s k hw hk hb] at hrun
  have hcycles : s.params.waitCycles s.params.pollLimit = 3 + (k + 1) * s.params.pollCycles + (0 + 2) := by
    rw [hk, Params.waitCycles]
    omega
  rwa [hcycles]

/-- Settles O24: the polls before the first ready sample, that poll, and the exit. -/
theorem busyWaitEndsAtTheFirstReadySample : Obligations.BusyWaitEndsAtTheFirstReadySample := by
  unfold Obligations.BusyWaitEndsAtTheFirstReadySample
  exact fun s k a rest hl hw hr hq => (Runs.busyWait_ok a rest hl hw hr).busyUntil rfl hq

/-- Settles O25: as many busy polls as the limit, and the exit with TIMEOUT. -/
theorem busyWaitTimesOutAtTheLimit : Obligations.BusyWaitTimesOutAtTheLimit := by
  unfold Obligations.BusyWaitTimesOutAtTheLimit
  intro s a rest hl hw ht hq
  have h := (Runs.busyWait_timeout a rest hl hw ht).busyUntil rfl hq
  cases a <;> exact h

/-- With no LCD on the bus the pull-ups read 1 in every bit (20_memory.md R77). -/
theorem State.busyAt_of_no_lcd {s : State} (h : s.lcdPresent = false) (j : Nat) : s.busyAt j = true := by
  have ones : ∀ k : Fin 4, (0xF#4).getLsbD k = true := by decide
  rw [State.busyAt, State.sampleAt, h]
  exact ones s.params.busyBit

theorem State.lcdIn_of_pulled_up {s : State} (h : s.lcdPresent = false) (hoe : s.d_oe = false) (hpu : s.d_pu = true) :
    s.lcdIn = 0xF#4 := by
  simp [State.lcdIn, State.lcdDrives, State.dataLines, State.lcdD, h, hoe, hpu]

/-- Settles O32: the level of the lines is 1 in every bit, and so is the sample's. -/
theorem disconnectedLcdReadsBusy : Obligations.DisconnectedLcdReadsBusy := by
  unfold Obligations.DisconnectedLcdReadsBusy
  intro s h hoe hpu
  have hin := State.lcdIn_of_pulled_up h hoe hpu
  refine ⟨hin, State.busyAt_of_no_lcd h, ?_⟩
  have hsample : s.busyAt 0 = s.takeSample.busy_r := by
    simp [State.busyAt, State.sampleAt, h, State.takeSample, hin]
  exact hsample ▸ State.busyAt_of_no_lcd h 0

end Sys2Proof.Machine
end

section
/-! The byte commands from DECODE to IDLE (44_command_api.md R170; 70_reset_and_hazards.md R247). -/

namespace Sys2Proof.Machine

/-- The transfer and the wait of a byte command are its busy time but for the edge of DECODE. -/
theorem byteBusy_sub_one (p : Params) (k : Nat) : p.byteBusy k - 1 = p.xferCycles + p.waitCycles k := by
  unfold Params.byteBusy Params.xferCycles Params.waitCycles
  omega

theorem Runs.byteProgram_ok {s : State} {k : Nat} (b : Byte) (rs : Bool) (hl : s.params.Legal) (hw : s.WriteReady)
    (hr : s.ReadyAfter 0 k) :
    Runs (s.params.byteBusy k - 1) s (byteProgram b rs) ((s.afterXfer b rs).afterWait k) [] := by
  have hwait := Runs.busyWait_ok (s := s.afterXfer b rs) .carryOn [] hl hw hr
  rw [List.append_nil] at hwait
  rw [byteBusy_sub_one]
  exact (Runs.xfer s b rs _ hl hw).trans hwait

theorem Runs.byteProgram_timeout {s : State} (b : Byte) (rs : Bool) (hl : s.params.Legal) (hw : s.WriteReady)
    (ht : s.TimesOut 0) :
    Runs (s.params.byteBusy s.params.pollLimit - 1) s (byteProgram b rs) (s.afterXfer b rs).afterTimeout [] := by
  have hwait := Runs.busyWait_timeout (s := s.afterXfer b rs) .carryOn [] hl hw ht
  rw [List.append_nil] at hwait
  rw [byteBusy_sub_one]
  exact (Runs.xfer s b rs _ hl hw).trans hwait

/-- Every command that sends a byte completes with that byte (30_encoding.md R93). -/
theorem byteCommandCompletes {i : Instr} {b : Byte} {rs : Bool} (h : i.byteSent = some (b, rs)) :
    ByteCommandCompletes i b rs :=
  fun _ _ hi hl hw hr hq => ⟨_, exec_byte h hi, (Runs.byteProgram_ok b rs hl hw hr).busyUntil rfl hq⟩

/-- Settles O26: the six byte commands with the bytes they send. -/
theorem byteCommandsComplete : Obligations.ByteCommandsComplete := by
  unfold Obligations.ByteCommandsComplete
  exact ⟨fun _ _ => byteCommandCompletes rfl, fun _ _ => byteCommandCompletes rfl, fun _ _ => byteCommandCompletes rfl,
    fun _ _ => byteCommandCompletes rfl, fun _ _ => byteCommandCompletes rfl, fun _ _ => byteCommandCompletes rfl⟩

/-- Settles O27: the transfer, and a wait that times out and carries on to the end of the list. -/
theorem byteCommandsTimeOut : Obligations.ByteCommandsTimeOut := by
  unfold Obligations.ByteCommandsTimeOut
  exact fun i b rs s h hi hl hw ht hq =>
    ⟨_, exec_byte h hi, (Runs.byteProgram_timeout b rs hl hw ht).busyUntil rfl hq⟩

/-- With no limit a wait ends at the first ready sample there is (20_memory.md R77). -/
theorem State.readyAfter_of_ready {s : State} (hl : s.params.pollLimit = 0) (h : ∃ j, s.busyAt j = false) :
    ∃ k, s.ReadyAfter 0 k := by
  refine ⟨Nat.find h + 1, Nat.succ_pos _, fun j hj => ?_, ?_, .inl hl⟩
  · rw [Nat.zero_add]
    exact Bool.eq_true_of_not_eq_false (Nat.find_min h (Nat.lt_of_succ_lt_succ hj))
  · rw [Nat.zero_add, Nat.add_sub_cancel]
    exact Nat.find_spec h

/-- Settles O33: the first ready sample ends the wait, and the command completes. -/
theorem readyLcdLetsCommandsEnd : Obligations.ReadyLcdLetsCommandsEnd := by
  unfold Obligations.ReadyLcdLetsCommandsEnd
  intro i s hb hi hw hl h0 hready hq
  obtain ⟨⟨b, rs⟩, hb⟩ := Option.ne_none_iff_exists'.mp hb
  obtain ⟨k, hk⟩ := State.readyAfter_of_ready h0 hready
  obtain ⟨t, ht, hrun, -⟩ := byteCommandCompletes hb s k hi hl hw hk (hq _)
  exact ⟨t, _, _, ht, hrun, rfl, rfl, rfl⟩

/-- Settles O19: the first step of `XFER` takes a cycle, so it is entered. -/
theorem byteCommandsBeginWithSelect : Obligations.ByteCommandsBeginWithSelect := by
  unfold Obligations.ByteCommandsBeginWithSelect
  exact fun i b rs s h hi => ⟨_, exec_byte h hi⟩

end Sys2Proof.Machine
end

section
/-! INIT from DECODE to IDLE (40_init_sequence.md R110 to R124; 70_reset_and_hazards.md R248). -/

namespace Sys2Proof.Machine

/-- Settles O18: `CFG` takes a cycle, so it is entered. -/
theorem initBeginsWithCfg : Obligations.InitBeginsWithCfg := by
  unfold Obligations.InitBeginsWithCfg
  exact fun arg1 arg0 s => ⟨_, exec_init arg1 arg0 s⟩

/-! ## The cold start -/

/-- What follows the cold start in INIT's list. -/
def initTail : List Item := busyWait .abort ++ (initBytes.flatMap initByte ++ [.ready])

/-- INIT's list, grouped by what takes cycles together. -/
theorem initProgram_eq :
    initProgram =
      steps [.cfg] ++ (steps [.wait .pwr] ++
        (steps (nibble (.fixed 0x3#4)) ++ (steps [.wait .por1] ++
        (steps (nibble (.fixed 0x3#4)) ++ (steps [.wait .por2] ++
        (steps (nibble (.fixed 0x3#4)) ++ (steps [.wait .por3] ++
        (steps (nibble (.fixed 0x2#4)) ++ initTail)))))))) := by
  simp only [initProgram, probe, initTail, initBytes, steps, List.map_append, List.append_assoc, List.flatMap_cons,
    List.flatMap_nil, List.append_nil, List.map_cons, List.map_nil, List.cons_append, List.nil_append]
  rfl

/-- `CFG` leaves the lines ready for a transfer (40_init_sequence.md R112). -/
theorem State.writeReady_cfg (s : State) : (s.apply .cfg).WriteReady := ⟨rfl, rfl, rfl, rfl, rfl, rfl⟩

/-- The block after a fixed init delay: none of 0 cycles (40_init_sequence.md R113, R116). -/
def State.afterDelay (s : State) (d : Delay) : State :=
  { s with cnt := if s.delay d = 0 then s.cnt else 0, trace := s.trace ++ delayEvents (s.delay d) }

theorem State.through_delay (s : State) {d : Delay} (hd : d.events (s.delay d) = [.wait (s.delay d)]) :
    s.through (.wait d) = s.afterDelay d := by
  by_cases h : s.delay d = 0 <;>
    simp [State.through, State.afterDelay, delayEvents, State.apply, State.emit, hd, h]

theorem Runs.delay (s : State) {d : Delay} (hd : d.events (s.delay d) = [.wait (s.delay d)]) (rest : List Item) :
    Runs (s.delay d) s (Machine.steps [.wait d] ++ rest) (s.afterDelay d) rest := by
  have h := Runs.steps s [.wait d] rest
  rwa [State.throughAll_cons, s.through_delay hd] at h

theorem Runs.of_cycles {m n : Nat} {s t : State} {a b : List Item} (h : Runs n s a t b) (hn : m = n) :
    Runs m s a t b :=
  hn ▸ h

/-- The block after a nibble and the delay after it (40_init_sequence.md R114 to R116). -/
def State.afterProbe (s : State) (n : Nibble) (d : Delay) : State := (s.afterNibble n).afterDelay d

@[simp] theorem State.afterDelay_params (s : State) (d : Delay) : (s.afterDelay d).params = s.params := rfl

@[simp] theorem State.afterProbe_params (s : State) (n : Nibble) (d : Delay) :
    (s.afterProbe n d).params = s.params := rfl

theorem State.WriteReady.afterDelay {s : State} (h : s.WriteReady) (d : Delay) : (s.afterDelay d).WriteReady := h

theorem State.WriteReady.afterProbe {s : State} (h : s.WriteReady) (n : Nibble) (d : Delay) :
    (s.afterProbe n d).WriteReady := h

theorem Runs.probe (s : State) (n : Nibble) {d : Delay} (rest : List Item) (hl : s.params.Legal) (hw : s.WriteReady)
    (hd : d.events (s.delay d) = [.wait (s.delay d)]) :
    Runs (s.params.nibbleCycles + s.delay d) s
      (Machine.steps (Machine.nibble (.fixed n)) ++ (Machine.steps [.wait d] ++ rest)) (s.afterProbe n d) rest :=
  (Runs.nibble s n _ hl hw).trans (Runs.delay (s.afterNibble n) hd rest)

theorem State.afterColdStart_eq (s : State) :
    (((((s.apply .cfg).afterDelay .pwr).afterProbe 0x3#4 .por1).afterProbe 0x3#4 .por2).afterProbe 0x3#4
      .por3).afterNibble 0x2#4 = s.afterColdStart := by
  simp [State.afterNibble, State.afterProbe, State.afterDelay, State.delay, State.apply, State.emit,
    State.afterColdStart, coldStartEvents, coldStartLatches]

theorem Runs.coldStart (s : State) (hl : s.params.Legal) :
    Runs s.params.coldStartCycles s initProgram s.afterColdStart initTail := by
  have hl₀ : ((s.apply .cfg).afterDelay .pwr).params.Legal := by simpa using hl
  have hw₀ := s.writeReady_cfg.afterDelay .pwr
  have hw₁ := hw₀.afterProbe 0x3#4 .por1
  have hw₂ := hw₁.afterProbe 0x3#4 .por2
  have hw₃ := hw₂.afterProbe 0x3#4 .por3
  have hrun := (Runs.steps s [.cfg] _).trans <| (Runs.delay (s.apply .cfg) (d := .pwr) rfl _).trans <|
    (Runs.probe _ 0x3#4 (d := .por1) _ hl₀ hw₀ rfl).trans <|
    (Runs.probe _ 0x3#4 (d := .por2) _ (by simpa using hl) hw₁ rfl).trans <|
    (Runs.probe _ 0x3#4 (d := .por3) _ (by simpa using hl) hw₂ rfl).trans <|
    Runs.nibble _ 0x2#4 initTail (by simpa using hl) hw₃
  rw [← initProgram_eq, State.afterColdStart_eq] at hrun
  refine hrun.of_cycles ?_
  simp only [State.cyclesAll, State.cycles, State.delay, State.apply_params, State.afterDelay_params,
    State.afterProbe_params, Params.coldStartCycles]
  omega

theorem State.writeReady_afterColdStart (s : State) : s.afterColdStart.WriteReady := ⟨rfl, rfl, rfl, rfl, rfl, rfl⟩

/-! ## The samples of later waits -/

theorem State.ReadyAfter.shift {s t : State} {m o k : Nat} (h : s.ReadyAfter (m + o) k) (hp : t.params = s.params)
    (hb : ∀ j, t.busyAt j = s.busyAt (m + j)) : t.ReadyAfter o k := by
  obtain ⟨hk, hbusy, hready, hlim⟩ := h
  refine ⟨hk, fun j hj => ?_, ?_, hp ▸ hlim⟩
  · rw [hb, ← Nat.add_assoc]
    exact hbusy j hj
  · rw [hb, ← Nat.add_assoc]
    exact hready

theorem State.ReadyInTurn.shift {s t : State} {m : Nat} (hp : t.params = s.params)
    (hb : ∀ j, t.busyAt j = s.busyAt (m + j)) {o : Nat} {ks : List Nat} (h : s.ReadyInTurn (m + o) ks) :
    t.ReadyInTurn o ks := by
  induction ks generalizing o with
  | nil => trivial
  | cons k ks ih => exact ⟨h.1.shift hp hb, ih (Nat.add_assoc m o k ▸ h.2)⟩

theorem State.TimesOut.shift {s t : State} {m o : Nat} (h : s.TimesOut (m + o)) (hp : t.params = s.params)
    (hb : ∀ j, t.busyAt j = s.busyAt (m + j)) : t.TimesOut o := by
  obtain ⟨h0, hbusy⟩ := h
  refine ⟨hp ▸ h0, fun j hj => ?_⟩
  rw [hb, ← Nat.add_assoc]
  exact hbusy j (hp ▸ hj)

/-! ## The bytes -/

theorem State.afterInitBytes_params (s : State) (stages : List (Byte × Nat)) :
    (s.afterInitBytes stages).params = s.params := by
  induction stages generalizing s with
  | nil => rfl
  | cons st stages ih => exact ih _

theorem State.afterInitBytes_host (s : State) (stages : List (Byte × Nat)) :
    (s.afterInitBytes stages).host = s.host := by
  induction stages generalizing s with
  | nil => rfl
  | cons st stages ih => exact ih _

theorem State.WriteReady.afterInitBytes {s : State} (h : s.WriteReady) (stages : List (Byte × Nat)) :
    (s.afterInitBytes stages).WriteReady := by
  induction stages generalizing s with
  | nil => exact h
  | cons st stages ih => exact ih h

/-- Each byte's wait uses up its samples. -/
theorem State.busyAt_afterInitBytes (s : State) (bytes : List Byte) (ks : List Nat) (hlen : bytes.length = ks.length)
    (j : Nat) : (s.afterInitBytes (bytes.zip ks)).busyAt j = s.busyAt (ks.sum + j) := by
  induction bytes generalizing s ks with
  | nil =>
    obtain rfl : ks = [] := List.length_eq_zero_iff.mp hlen.symm
    simp [State.afterInitBytes]
  | cons b bytes ih =>
    match ks with
    | k :: ks =>
      have h := ih ((s.afterXfer b false).afterWait k) ks (Nat.succ.inj hlen)
      rw [State.busyAt_afterWait, ← Nat.add_assoc] at h
      exact h

theorem Runs.bytes (bytes : List Byte) (ks : List Nat) (s : State) (rest : List Item) (hlen : bytes.length = ks.length)
    (hl : s.params.Legal) (hw : s.WriteReady) (hr : s.ReadyInTurn 0 ks) :
    Runs (s.params.bytesCycles ks) s (bytes.flatMap initByte ++ rest) (s.afterInitBytes (bytes.zip ks)) rest := by
  induction bytes generalizing s ks with
  | nil =>
    obtain rfl : ks = [] := List.length_eq_zero_iff.mp hlen.symm
    exact Runs.refl s rest
  | cons b bytes ih =>
    match ks with
    | k :: ks =>
      obtain ⟨hk, hks⟩ := hr
      have hshift : ∀ j, ((s.afterXfer b false).afterWait k).busyAt j = s.busyAt (k + j) :=
        (s.afterXfer b false).busyAt_afterWait k
      have hks : s.ReadyInTurn (k + 0) ks := Nat.add_comm 0 k ▸ hks
      have hrest := ih ks ((s.afterXfer b false).afterWait k) (Nat.succ.inj hlen) hl hw
        (.shift (s := s) (t := (s.afterXfer b false).afterWait k) rfl hshift hks)
      have hlist : (b :: bytes).flatMap initByte ++ rest =
          Machine.steps (Machine.xfer b false) ++ (busyWait .abort ++ (bytes.flatMap initByte ++ rest)) := by
        simp [initByte]
      rw [hlist]
      exact ((Runs.xfer s b false _ hl hw).trans
        (Runs.busyWait_ok (s := s.afterXfer b false) .abort _ hl hw hk)).trans hrest

/-! ## Whole INITs -/

/-- The cold start and the wait after it. -/
theorem Runs.modeSwitch {s : State} {k : Nat} (hl : s.params.Legal) (hr : s.ReadyAfter 0 k) :
    Runs (s.params.coldStartCycles + s.params.waitCycles k) s initProgram (s.afterColdStart.afterWait k)
      (initBytes.flatMap initByte ++ [.ready]) :=
  (Runs.coldStart s hl).trans
    (Runs.busyWait_ok (s := s.afterColdStart) .abort _ hl s.writeReady_afterColdStart hr)

theorem State.readyInTurn_afterModeSwitch {s : State} {k : Nat} {ks : List Nat} (h : s.ReadyInTurn (0 + k) ks) :
    (s.afterColdStart.afterWait k).ReadyInTurn 0 ks := by
  have h : s.ReadyInTurn (k + 0) ks := Nat.add_comm 0 k ▸ h
  exact .shift (s := s) (t := s.afterColdStart.afterWait k) rfl (s.afterColdStart.busyAt_afterWait k) h

/-- The cold start, its wait, and the bytes that have so many polls. -/
theorem Runs.initPrefix {s : State} {k : Nat} {ks : List Nat} (bytes : List Byte) (rest : List Item)
    (hlen : bytes.length = ks.length) (hl : s.params.Legal) (hr : s.ReadyInTurn 0 (k :: ks))
    (hlist : initBytes.flatMap initByte ++ [.ready] = bytes.flatMap initByte ++ rest) :
    Runs (s.params.coldStartCycles + s.params.waitCycles k + s.params.bytesCycles ks) s initProgram
      ((s.afterColdStart.afterWait k).afterInitBytes (bytes.zip ks)) rest := by
  have hmode := Runs.modeSwitch hl hr.1
  rw [hlist] at hmode
  exact hmode.trans (Runs.bytes bytes ks (s.afterColdStart.afterWait k) rest hlen hl s.writeReady_afterColdStart
    (State.readyInTurn_afterModeSwitch hr.2))

theorem bytesCycles_eq (p : Params) (ks : List Nat) :
    p.bytesCycles ks = ks.length * (p.xferCycles + 5) + ks.sum * p.pollCycles := by
  induction ks with
  | nil => simp [Params.bytesCycles]
  | cons k ks ih =>
    simp only [Params.bytesCycles, ih, Params.waitCycles, List.length_cons, List.sum_cons, Nat.add_mul]
    omega

theorem bytesCycles_append (p : Params) (ks ms : List Nat) :
    p.bytesCycles (ks ++ ms) = p.bytesCycles ks + p.bytesCycles ms := by
  induction ks with
  | nil => simp [Params.bytesCycles]
  | cons k ks ih =>
    simp only [List.cons_append, Params.bytesCycles, ih]
    omega

/-- The cold start and the four bytes with their five waits are INIT's busy time but for the edge of DECODE. -/
theorem initBusy_sub_one (p : Params) (k : Nat) {ks : List Nat} (h : ks.length = 4) :
    p.initBusy (k + ks.sum) - 1 = p.coldStartCycles + p.waitCycles k + p.bytesCycles ks := by
  rw [bytesCycles_eq, h, Params.initBusy, Params.coldStartCycles, Params.waitCycles, Params.xferCycles,
    Params.nibbleCycles, Nat.add_mul]
  omega

/-- Settles O28: the cold start, four bytes, and the entry `.ready`. -/
theorem initCompletes : Obligations.InitCompletes := by
  unfold Obligations.InitCompletes
  intro arg1 arg0 s k ks hl hlen hr hq
  rw [initBusy_sub_one s.params k hlen] at hq ⊢
  have hrun := Runs.initPrefix initBytes [.ready] hlen.symm hl hr rfl
  exact ⟨_, exec_init arg1 arg0 s, hrun.busyUntil (State.afterInitBytes_host _ _) hq⟩

/-- Settles O29: the cold start, and a wait that drops the rest of the list. -/
theorem initAbortsAtTheModeSwitch : Obligations.InitAbortsAtTheModeSwitch := by
  unfold Obligations.InitAbortsAtTheModeSwitch
  intro arg1 arg0 s hl ht hq
  have hwait := Runs.busyWait_timeout (s := s.afterColdStart) .abort (initBytes.flatMap initByte ++ [.ready]) hl
    s.writeReady_afterColdStart ht
  exact ⟨_, exec_init arg1 arg0 s, ((Runs.coldStart s hl).trans hwait).busyUntil rfl hq⟩

/-- INIT's bytes around one of them: those before it are what is zipped with as many polls. -/
theorem initBytes_split {ks : List Nat} {b : Byte} (hb : initBytes[ks.length]? = some b) :
    ∃ before after : List Byte, initBytes = before ++ b :: after ∧ before.length = ks.length ∧
      initBytes.zip ks = before.zip ks := by
  obtain ⟨hlt, rfl⟩ := List.getElem?_eq_some_iff.mp hb
  refine ⟨initBytes.take ks.length, initBytes.drop (ks.length + 1), ?_, List.length_take_of_le hlt.le, ?_⟩
  · rw [← List.drop_eq_getElem_cons hlt, List.take_append_drop]
  · rw [List.zip_eq_zip_take_min, min_eq_right hlt.le, List.take_length]

/-- Settles O30: the cold start, the bytes before, the byte, and a wait that drops the rest of the list. -/
theorem initAbortsAtAByte : Obligations.InitAbortsAtAByte := by
  unfold Obligations.InitAbortsAtAByte
  intro arg1 arg0 s k ks b hl hb hr ht n hq
  obtain ⟨before, after, hbytes, hlen, hzip⟩ := initBytes_split hb
  have hlist : initBytes.flatMap initByte ++ [.ready] = before.flatMap initByte ++
      (steps (xfer b false) ++ (busyWait .abort ++ (after.flatMap initByte ++ [.ready]))) := by
    simp [hbytes, initByte]
  have hbefore := Runs.initPrefix before _ hlen hl hr hlist
  let t := (s.afterColdStart.afterWait k).afterInitBytes (before.zip ks)
  have hp : t.params = s.params := State.afterInitBytes_params _ _
  have hl' : t.params.Legal := hp ▸ hl
  have hw : t.WriteReady :=
    State.WriteReady.afterInitBytes (s := s.afterColdStart.afterWait k) s.writeReady_afterColdStart _
  have hbusy (j : Nat) : t.busyAt j = s.busyAt (k + ks.sum + j) := by
    refine (State.busyAt_afterInitBytes _ before ks hlen j).trans ?_
    rw [State.busyAt_afterWait, Nat.add_assoc]
    rfl
  have htime : t.TimesOut 0 := State.TimesOut.shift (s := s) (o := 0) ht hp hbusy
  have hlast := (Runs.xfer t b false _ hl' hw).trans
    (Runs.busyWait_timeout (s := t.afterXfer b false) .abort (after.flatMap initByte ++ [.ready]) hl' hw htime)
  have hcycles : n = s.params.coldStartCycles + s.params.waitCycles k + s.params.bytesCycles ks +
      (t.params.xferCycles + t.params.waitCycles t.params.pollLimit) := by
    rw [hp]
    simp only [n, bytesCycles_append, Params.bytesCycles]
    omega
  rw [hzip]
  rw [hcycles] at hq ⊢
  exact ⟨_, exec_init arg1 arg0 s, (hbefore.trans hlast).busyUntil (State.afterInitBytes_host _ _) hq⟩

/-! ## A wait that never ends -/

/-- A block that runs for any number of cycles is never in IDLE. -/
theorem Runs.never_idle {s : State} {items : List Item} (hq : ∀ n, quietFor n s.host = true)
    (h : ∀ n, ∃ m t items', n < m ∧ Runs m s items t items') (n : Nat) :
    ∃ u, runFor n (s.proceed items) = .next u ∧ u.seq ≠ .idle ∧ u.cmdReady = false := by
  obtain ⟨m, t, items', hm, hrun⟩ := h n
  obtain ⟨u, hu, hidle⟩ := (hrun s.host (hq m)).2 n hm
  refine ⟨u, hu, hidle, ?_⟩
  have hni : u.isIdle = false := beq_eq_false_iff_ne.mpr hidle
  rw [State.cmdReady, hni, Bool.false_and]

/-- With no limit and no ready sample a wait runs for any number of cycles (43_busy_wait.md R160). -/
theorem Runs.unready_wait {s : State} (a : OnTimeout) (rest : List Item) (hl : s.params.Legal) (hw : s.WriteReady)
    (h0 : s.params.pollLimit = 0) (hb : ∀ j, s.busyAt j = true) (n : Nat) :
    ∃ m t items', n < m ∧ Runs m s (busyWait a ++ rest) t items' := by
  refine ⟨_, _, _, ?_, Runs.waitPolls (n + 1) s a rest hl hw (fun j _ => hb j) (.inl h0)⟩
  have hpoll : 1 ≤ s.params.pollCycles := by
    unfold Params.pollCycles
    omega
  have hmul : (n + 1) * 1 ≤ (n + 1) * s.params.pollCycles := Nat.mul_le_mul_left _ hpoll
  omega

/-- Settles O31: the steps before the wait, and a wait that runs for any number of cycles. -/
theorem unreadyLcdHangsTheBlock : Obligations.UnreadyLcdHangsTheBlock := by
  unfold Obligations.UnreadyLcdHangsTheBlock
  intro i s hi hl h0 hb hq
  have hangs {m₀ : Nat} {t₀ : State} {items wait : List Item} (hrun : Runs m₀ s items t₀ wait)
      (hwait : ∀ n, ∃ m t items', n < m ∧ Runs m t₀ wait t items') :
      ∀ n, ∃ u, runFor n (s.proceed items) = .next u ∧ u.seq ≠ .idle ∧ u.cmdReady = false := by
    refine Runs.never_idle hq fun n => ?_
    obtain ⟨m, t, items', hm, hw⟩ := hwait n
    exact ⟨m₀ + m, t, items', Nat.lt_add_left m₀ hm, hrun.trans hw⟩
  rcases hi with ⟨hbyte, hi, hw⟩ | hop
  · obtain ⟨⟨b, rs⟩, hbyte⟩ := Option.ne_none_iff_exists'.mp hbyte
    have hwait := Runs.unready_wait (s := s.afterXfer b rs) .carryOn [] hl hw h0 hb
    rw [List.append_nil] at hwait
    exact ⟨_, exec_byte hbyte hi, hangs (Runs.xfer s b rs _ hl hw) hwait⟩
  · rw [eq_init_of_op hop]
    exact ⟨_, exec_init _ _ s, hangs (Runs.coldStart s hl)
      (Runs.unready_wait (s := s.afterColdStart) .abort _ hl s.writeReady_afterColdStart h0 hb)⟩

end Sys2Proof.Machine
end

section
/-! The host's sequences and the assembler (45_host_sequences.md R190 to R195; 30_encoding.md R101, R102). -/

namespace Sys2Proof.Machine

/-! ## Write-string and write-number -/

theorem wstr_of_no_terminator {text : List Byte} (h : ∀ c ∈ text, c ≠ 0x00#8) : wstr text = text.map (.wdata 0) := by
  have hall : text.takeWhile (· != terminator) = text :=
    List.takeWhile_eq_self_iff.mpr fun c hc => bne_iff_ne.mpr (h c hc)
  rw [wstr, hall]

theorem wstr_append_terminator {text : List Byte} (rest : List Byte) (h : ∀ c ∈ text, c ≠ 0x00#8) :
    wstr (text ++ 0x00#8 :: rest) = text.map (.wdata 0) := by
  have hstop : (text ++ 0x00#8 :: rest).takeWhile (· != terminator) = text := by
    have hkeep : ∀ c ∈ text, (c != terminator) = true := fun c hc => bne_iff_ne.mpr (h c hc)
    rw [List.takeWhile_append_of_pos hkeep]
    simp [terminator]
  rw [wstr, hstop]

/-- Settles O52: the characters taken are those before the first terminator. -/
theorem wstrStopsAtTheTerminator : Obligations.WstrStopsAtTheTerminator := by
  unfold Obligations.WstrStopsAtTheTerminator
  exact ⟨fun _ rest h => ⟨wstr_of_no_terminator h, wstr_append_terminator rest h⟩, rfl⟩

theorem digitCode_ne_terminator {d : Nat} (h : d ≤ 9) : digitCode d ≠ 0x00#8 := by
  intro he
  have hn := congrArg BitVec.toNat he
  rw [digitCode, BitVec.toNat_ofNat, Nat.mod_eq_of_lt (by omega)] at hn
  exact absurd hn (by simp)

theorem decimal_no_terminator (v : BitVec 16) : ∀ c ∈ decimal v, c ≠ 0x00#8 := by
  intro c hc
  rcases List.mem_append.mp hc with hsign | hdigit
  · obtain rfl : c = minusCode := by
      split at hsign
      · exact List.mem_singleton.mp hsign
      · simp at hsign
    decide
  · obtain ⟨d, hd, rfl⟩ := List.mem_map.mp hdigit
    exact digitCode_ne_terminator (le_nine_of_mem_digitsOf hd)

/-- Settles O51: no character of a number is the terminator, so write-string issues them all. -/
theorem wnumIssuesEveryDigit : Obligations.WnumIssuesEveryDigit := by
  unfold Obligations.WnumIssuesEveryDigit
  exact fun v => wstr_of_no_terminator (decimal_no_terminator v)

/-! ## A text through the handshake -/

theorem runFor_one {s t : State} (h : step s = .next t) : runFor 1 s = .next t := by
  simp [runFor, h]

theorem hostAfterEdge_hostOffers (cmds : List Instr) : hostAfterEdge (hostOffers cmds) = hostOffers cmds := by
  cases cmds <;> rfl

theorem hostAfterEdges_hostOffers (n : Nat) (cmds : List Instr) :
    hostAfterEdges n (hostOffers cmds) = hostOffers cmds := by
  induction n with
  | zero => rfl
  | succ n ih => rw [hostAfterEdges, hostAfterEdge_hostOffers, ih]

theorem quietFor_hostOffers (n : Nat) (cmds : List Instr) : quietFor n (hostOffers cmds) = true := by
  induction n with
  | zero => rfl
  | succ n ih =>
    cases cmds with
    | nil => rfl
    | cons i cmds => simpa [quietFor, hostOffers, HostMove.rst, hostAfterEdge] using ih

/-- What one character leaves beside the host: the transfer, a wait of one poll, and the command word in IDLE. -/
def State.afterChar (s : State) (c : Byte) : State :=
  { (s.afterXfer c true).afterWait 1 with cmd_r := encode (.wdata 0 c), seq := .idle }

/-- One character: the acceptance edge, the edge of DECODE, and the rest of the command. -/
theorem runFor_char {s : State} {c : Byte} {cmds : List Instr} (hs : s.seq = .idle) (hi : s.init_done = true)
    (hw : s.WriteReady) (hl : s.params.Legal) (hh : s.host = hostOffers (.wdata 0 c :: cmds))
    (hb : s.busyAt 0 = false) :
    runFor (s.params.byteBusy 1 + 1) s = .next { s.afterChar c with host := hostOffers cmds } := by
  let s₁ := s.afterAccept (encode (.wdata 0 c))
  have hrst : s.rst = false := by rw [State.rst, State.hostMove, hh]; rfl
  have haccept : step s = .next s₁ := step_accept hrst hs (by rw [State.hostMove, hh]; rfl)
  have htail : s₁.host = hostOffers cmds := congrArg List.tail hh
  have hdecode : step s₁ = exec (.wdata 0 c) s₁.hostTick := by
    have hr : s₁.rst = false := rst_eq_false (n := 0) (htail ▸ quietFor_hostOffers 1 cmds)
    have hcmd : s₁.cmd_r = encode (.wdata 0 c) := rfl
    rw [step_of_decode hr rfl, hcmd, decode_encode]
  have hhost : s₁.hostTick.host = hostOffers cmds := by
    rw [State.hostTick_host, htail, hostAfterEdge_hostOffers]
  have hready : s₁.hostTick.ReadyAfter 0 1 := ⟨le_refl 1, fun j hj => absurd hj (by omega), hb, by omega⟩
  obtain ⟨t, ht, hrun, -⟩ := byteCommandCompletes (i := .wdata 0 c) rfl s₁.hostTick 1 hi hl hw hready
    (by rw [hhost]; exact quietFor_hostOffers _ cmds)
  have hedges : s.params.byteBusy 1 + 1 = 1 + (1 + (s.params.byteBusy 1 - 1)) := by
    unfold Params.byteBusy
    omega
  rw [hedges]
  refine runFor_add (runFor_one haccept) (runFor_add (runFor_one (hdecode.trans ht)) (hrun.trans ?_))
  have hend : hostAfterEdges (s.params.byteBusy 1 - 1) s₁.hostTick.host = hostOffers cmds := by
    rw [hhost, hostAfterEdges_hostOffers]
  exact congrArg (fun h => Host.Outcome.next ((s.afterChar c).at .idle h)) hend

theorem State.busyAt_afterChar (s : State) (c : Byte) (j : Nat) : (s.afterChar c).busyAt j = s.busyAt (1 + j) :=
  (s.afterXfer c true).busyAt_afterWait 1 j

/-- Settles O53: one character after another, each issued when the block is in IDLE again. -/
theorem issuedTextReachesTheLcd : Obligations.IssuedTextReachesTheLcd := by
  unfold Obligations.IssuedTextReachesTheLcd
  intro s text hs hi hw hl hne hh hb
  rw [wstr_of_no_terminator hne] at hh
  clear hne
  induction text generalizing s with
  | nil => exact ⟨s, by simp [runFor], hs, hh, hi, rfl, by simp⟩
  | cons c text ih =>
    have hchar := runFor_char hs hi hw hl hh (hb 0 (Nat.succ_pos _))
    let t : State := { s.afterChar c with host := hostOffers (text.map (.wdata 0)) }
    obtain ⟨hctl, hdir, hoe, hpu, hrw, he⟩ := hw
    have hbusy (j : Nat) (hj : j < text.length) : t.busyAt j = false := by
      refine (s.busyAt_afterChar c j).trans (hb (1 + j) ?_)
      rw [List.length_cons]
      omega
    obtain ⟨u, hu, hidle, hhost, hdone, herr, hlat⟩ := ih t rfl hi ⟨hctl, hdir, hoe, hpu, hrw, he⟩ hl rfl hbusy
    refine ⟨u, ?_, hidle, hhost, hdone, herr, ?_⟩
    · rw [List.length_cons, Nat.succ_mul, Nat.add_comm]
      exact runFor_add hchar hu
    · rw [hlat]
      simp [t, State.afterChar, State.afterWait, State.afterXfer, xferLatches]

/-! ## The assembler -/

theorem imm8_of_le {n : Nat} (h : n ≤ 255) : imm8 n = some (BitVec.ofNat 8 n) := if_pos h

theorem imm8_of_lt {n : Nat} (h : 255 < n) : imm8 n = none := if_neg (Nat.not_le.mpr h)

/-- The word of a command as a number (30_encoding.md R90). -/
theorem toNat_encode (i : Instr) : (encode i).toNat = i.op.toNat * 0x10000 + i.arg1.toNat * 0x100 + i.arg0.toNat := by
  have h1 : i.arg1.toNat < 2 ^ 8 := i.arg1.isLt
  have h0 : i.arg0.toNat < 2 ^ 8 := i.arg0.isLt
  rw [encode, BitVec.toNat_append, BitVec.toNat_append, ← Nat.shiftLeft_add_eq_or_of_lt h1,
    ← Nat.shiftLeft_add_eq_or_of_lt h0, Nat.shiftLeft_eq, Nat.shiftLeft_eq]
  omega

theorem encode_eq_ofNat {i : Instr} {n : Nat} (h : i.op.toNat * 0x10000 + i.arg1.toNat * 0x100 + i.arg0.toNat = n) :
    encode i = BitVec.ofNat 19 n := by
  rw [← h, ← toNat_encode, BitVec.ofNat_toNat, BitVec.setWidth_eq]

theorem toNat_ofNat_byte {n : Nat} (h : n ≤ 255) : (BitVec.ofNat 8 n).toNat = n := by
  rw [BitVec.toNat_ofNat, Nat.mod_eq_of_lt (Nat.lt_succ_of_le h)]

theorem encode_wdata {n : Nat} (h : n ≤ 255) :
    encode (.wdata 0 (BitVec.ofNat 8 n)) = BitVec.ofNat 19 (0x10000 + n) :=
  encode_eq_ofNat (by simp [Instr.op, Instr.arg1, Instr.arg0, toNat_ofNat_byte h])

theorem encode_winstr {n : Nat} (h : n ≤ 255) :
    encode (.winstr 0 (BitVec.ofNat 8 n)) = BitVec.ofNat 19 (0x20000 + n) :=
  encode_eq_ofNat (by simp [Instr.op, Instr.arg1, Instr.arg0, toNat_ofNat_byte h])

theorem encode_setcur {col row : Nat} (hc : col ≤ 255) (hr : row ≤ 255) :
    encode (.setcur (BitVec.ofNat 8 row) (BitVec.ofNat 8 col)) = BitVec.ofNat 19 (0x30000 + row * 0x100 + col) :=
  encode_eq_ofNat (by simp [Instr.op, Instr.arg1, Instr.arg0, toNat_ofNat_byte hc, toNat_ofNat_byte hr])

/-- Settles O54: the three fields of each word, and the two tests on operands. -/
theorem assemblerWritesTheWords : Obligations.AssemblerWritesTheWords := by
  unfold Obligations.AssemblerWritesTheWords
  refine ⟨by decide, by decide, by decide, by decide, by decide, fun n h => if_neg (Nat.not_le.mpr h),
    fun n h => ⟨?_, ?_⟩, fun n h => ⟨?_, ?_⟩, fun col row hc hr => ?_, fun col row h => ?_, fun n h => if_pos h,
    fun n h => if_neg (Nat.not_lt.mpr h)⟩
  · simpa [assemble, imm8_of_le h] using encode_wdata h
  · simpa [assemble, imm8_of_le h] using encode_winstr h
  · simp [assemble, imm8_of_lt h]
  · simp [assemble, imm8_of_lt h]
  · simp [assemble, imm8_of_le hc, imm8_of_le hr, encode_setcur hc hr]
  · rcases h with h | h <;> simp [assemble, imm8_of_lt h]

/-- These words are those of well-formed commands. -/
def WellFormedWords (ws : List CmdWord) : Prop :=
  ∃ cmds : List Instr, ws = cmds.map encode ∧ ∀ i ∈ cmds, i.wellFormed = true

theorem wellFormedWords_singleton {i : Instr} (h : i.wellFormed = true) : WellFormedWords [encode i] :=
  ⟨[i], rfl, by simpa using h⟩

theorem wellFormedWords_wstr (text : List Byte) : WellFormedWords ((wstr text).map encode) := by
  refine ⟨_, rfl, fun i hi => ?_⟩
  obtain ⟨c, -, rfl⟩ := List.mem_map.mp hi
  rfl

/-- Every line but `.word` writes the words of well-formed commands (30_encoding.md R101, R102). -/
theorem wellFormedWords_of_assemble {line : AsmLine} {ws : List CmdWord} (h : assemble line = some ws)
    (hw : ∀ n, line ≠ .word n) : WellFormedWords ws := by
  cases line with
  | word n => exact absurd rfl (hw n)
  | blank => cases h; exact ⟨[], rfl, by simp⟩
  | init | clear | home | dispon | dispoff => cases h; exact wellFormedWords_singleton rfl
  | wdata n | winstr n =>
    obtain ⟨b, -, rfl⟩ := Option.map_eq_some_iff.mp h
    exact wellFormedWords_singleton rfl
  | setcur col row =>
    obtain ⟨c, -, hrow⟩ := Option.bind_eq_some_iff.mp h
    obtain ⟨r, -, rfl⟩ := Option.map_eq_some_iff.mp hrow
    exact wellFormedWords_singleton rfl
  | display n =>
    rw [assemble] at h
    split at h
    case isTrue hn =>
      cases h
      refine wellFormedWords_singleton ?_
      interval_cases n <;> rfl
    case isFalse => cases h
  | wstr text => cases h; exact wellFormedWords_wstr text
  | wnum v =>
    rw [assemble] at h
    split at h
    case isTrue => cases h; exact wellFormedWords_wstr _
    case isFalse => cases h

/-- Settles O55: each word decodes to the command it was encoded from. -/
theorem mnemonicsWriteWellFormedCommands : Obligations.MnemonicsWriteWellFormedCommands := by
  unfold Obligations.MnemonicsWriteWellFormedCommands
  intro line ws h hw w hmem
  obtain ⟨cmds, rfl, hwf⟩ := wellFormedWords_of_assemble h hw
  obtain ⟨i, hi, rfl⟩ := List.mem_map.mp hmem
  rw [decode_encode]
  exact hwf i hi

end Sys2Proof.Machine
end
